-- ==== Sys2Proof/Word.lean ====
section
/-! DEFINITION. The word types of the block (00_scope.md R16): bytes, 16-bit and 32-bit unsigned words, byte
sequences. Nothing in the block is signed. -/

namespace Sys2Proof

/-- A byte, an unsigned integer 0..255 (R16). -/
abbrev Byte := BitVec 8

/-- A `u16` of R16. -/
abbrev U16 := BitVec 16

/-- A `u32` of R16. -/
abbrev U32 := BitVec 32

/-- A byte sequence (R17): a packet, a payload, a frame, the value of a BLOB. -/
abbrev Bytes := List Byte

end Sys2Proof
end

