-- ==== Sys2Proof/Config.lean ====
section
/-! DEFINITION. The implementation parameters (00_scope.md section 4): the configuration record, its fixed values,
and the free HOLE draws. -/

namespace Sys2Proof

/-- `TOTAL_MISMATCH_POLICY` (R12): what the reassembler does with a segment whose total differs from that of the
active transfer with the same id. -/
inductive MismatchPolicy where
  | reject
  | restart
  deriving DecidableEq, Repr

/-- `COMPLETION_MODE` (R13): the test that ends a transfer. -/
inductive CompletionMode where
  | counter
  | coverage
  deriving DecidableEq, Repr

/-- The configuration of one instance (R7, R12, R13, R41). No command writes it. -/
structure Config where
  /-- `MAX_PAYLOAD` (R7), the largest legal LEN byte. -/
  maxPayload : Byte
  /-- `TOTAL_MISMATCH_POLICY` (R12). -/
  policy : MismatchPolicy
  /-- `COMPLETION_MODE` (R13). -/
  mode : CompletionMode
  deriving DecidableEq, Repr

namespace Config

/-- The reference configuration: MAX_PAYLOAD = 64, REJECT, COUNTER (R7, R12, R13). -/
def reference : Config := { maxPayload := 64, policy := .reject, mode := .counter }

/-- The legal range of the parameters: 8 ≤ MAX_PAYLOAD ≤ 255 (R7); the upper bound is the width of the field. -/
abbrev Legal (c : Config) : Prop := 8 ≤ c.maxPayload.toNat

/-- `SYNC_BYTE` = 0xAA (R8). -/
abbrev syncByte : Byte := 0xAA

/-- `CRC_POLY` = 0x1021 (R9). -/
abbrev crcPoly : U16 := 0x1021

/-- `CRC_INIT_FRAME` = 0xFFFF (R9). -/
abbrev crcInitFrame : U16 := 0xFFFF

/-- `SEG_TYPE_DATA` = 0x01 (R10). -/
abbrev segTypeData : Byte := 0x01

/-- `SEG_HDR_LEN` = 7 (R10). -/
abbrev segHdrLen : Nat := 7

/-- The HOLE draws (R14, R196): the byte that readout number `readout` gives for the unwritten cell `cell`. It has no
body, so nothing is known of any draw, and draws of different readouts or cells are unrelated (log entry 5). -/
opaque hole (readout cell : Nat) : Byte

end Config

end Sys2Proof
end

