-- ==== Sys2Proof/Syntax.lean ====
section
/-! DEFINITION. What the two decoders of the block name: statuses, parser states, opcodes and their packet formats,
parser transitions, and the instructions, one constructor per row of spec/opcode_table.json. -/

namespace Sys2Proof

/-- The status of a response (60_exceptions.md R240). -/
inductive Status where
  | ok
  | invalidArg
  | illegalOpcode
  | malformed
  deriving DecidableEq, Repr

/-- `P_STATE` (10_state.md R23). -/
inductive PState where
  | sync
  | len
  | data
  | crcHi
  | crcLo
  deriving DecidableEq, Repr

/-- The packet formats of 30_encoding.md R82. -/
inductive Format where
  /-- `op` -/
  | f0
  /-- `op, a:u8` -/
  | f1
  /-- `op, h:u16` -/
  | f2
  /-- `op, d:BLOB` -/
  | fb
  /-- `op, a:u8, d:BLOB` -/
  | f1b
  /-- `op, h:u16, d:BLOB` -/
  | f2b
  deriving DecidableEq, Repr

/-- The sixteen commands of the opcode map (30_encoding.md R82). -/
inductive Opcode where
  | crcInit
  | crcStep
  | crcCompute
  | frmEncode
  | prsFeed
  | prsReset
  | rxByte
  | segSplit
  | segSplitRaw
  | txSegmented
  | txRaw
  | rsmAccept
  | rsmStatus
  | rsmClear
  | regRead
  | coreReset
  deriving DecidableEq, Repr

/-- The nine parser transitions, in the order 30_encoding.md R93 tries them. -/
inductive Transition where
  | syncHit
  | syncDrop
  | lenBad
  | lenOk
  | data
  | dataLast
  | crcHi
  | crcMatch
  | crcMismatch
  deriving DecidableEq, Repr

/-- The instructions: the sixteen commands with their operands (30_encoding.md R82), and the nine parser transitions
with the byte they consume (R93). -/
inductive Instr where
  /-- CRC_INIT h (R102). -/
  | crcInit (h : U16)
  /-- CRC_STEP b (R103). -/
  | crcStep (b : Byte)
  /-- CRC_COMPUTE h, d (R104). -/
  | crcCompute (h : U16) (d : Bytes)
  /-- FRM_ENCODE d (R120). -/
  | frmEncode (d : Bytes)
  /-- PRS_FEED b (R150). -/
  | prsFeed (b : Byte)
  /-- PRS_RESET (R151). -/
  | prsReset
  /-- RX_BYTE b (R200). -/
  | rxByte (b : Byte)
  /-- SEG_SPLIT tid, d (R170). -/
  | segSplit (tid : Byte) (d : Bytes)
  /-- SEG_SPLIT_RAW d (R171). -/
  | segSplitRaw (d : Bytes)
  /-- TX_SEGMENTED tid, d (R172). -/
  | txSegmented (tid : Byte) (d : Bytes)
  /-- TX_RAW d (R173). -/
  | txRaw (d : Bytes)
  /-- RSM_ACCEPT d (R197). -/
  | rsmAccept (d : Bytes)
  /-- RSM_STATUS tid (R198). -/
  | rsmStatus (tid : Byte)
  /-- RSM_CLEAR (R199). -/
  | rsmClear
  /-- REG_READ a (R220). -/
  | regRead (a : Byte)
  /-- CORE_RESET (R222). -/
  | coreReset
  /-- PRS.SYNC_HIT (R141); the byte is 0xAA. -/
  | prsSyncHit
  /-- PRS.SYNC_DROP (R140). -/
  | prsSyncDrop (b : Byte)
  /-- PRS.LEN_BAD (R142). -/
  | prsLenBad (b : Byte)
  /-- PRS.LEN_OK (R143). -/
  | prsLenOk (b : Byte)
  /-- PRS.DATA (R144). -/
  | prsData (b : Byte)
  /-- PRS.DATA_LAST (R145). -/
  | prsDataLast (b : Byte)
  /-- PRS.CRC_HI (R146). -/
  | prsCrcHi (b : Byte)
  /-- PRS.CRC_MATCH (R147). -/
  | prsCrcMatch (b : Byte)
  /-- PRS.CRC_MISMATCH (R148). -/
  | prsCrcMismatch (b : Byte)
  deriving DecidableEq, Repr

/-- What stands for an instruction in bits: a command packet (R79), or the 11-bit decode key of a parser transition,
a 3-bit state code and a byte (R93). -/
inductive Code where
  | packet (bytes : Bytes)
  | key (state : BitVec 3) (b : Byte)
  deriving DecidableEq, Repr

/-- What the command decoder answers: an instruction, or the status that rejects the packet. -/
inductive Decoded where
  | instr (i : Instr)
  | reject (why : Status)
  deriving DecidableEq, Repr

/-- What the parser's byte decode reads beside the byte (R93): `P_STATE` and the fields its conditions name. -/
structure KeyContext where
  /-- `cfg.MAX_PAYLOAD` -/
  maxPayload : Byte
  /-- `P_STATE` -/
  state : PState
  /-- `P_LEN` -/
  len : Byte
  /-- len(P_ACC) -/
  count : Nat
  /-- `P_CRC` -/
  crc : U16
  /-- `P_CRCHI` -/
  crcHi : Byte
  deriving DecidableEq, Repr

end Sys2Proof
end

