-- ==== Sys2Proof/WellFormed.lean ====
section
/-! DEFINITION. Which instructions can be written down at all: a BLOB carries at most 65535 bytes (30_encoding.md R80),
and a parser transition's byte meets the part of its condition that speaks of the byte alone (R93). -/

namespace Sys2Proof

/-- A BLOB's length fits its 16-bit length field (R80). -/
def blobFits (d : Bytes) : Bool := decide (d.length ≤ 65535)

/-- The well-formed instructions. For PRS.LEN_BAD the byte must be rejected under some legal MAX_PAYLOAD (8..255, R7),
so it is 0 or at least 9. -/
def Instr.wellFormed : Instr → Bool
  | .crcInit _ => true
  | .crcStep _ => true
  | .crcCompute _ d => blobFits d
  | .frmEncode d => blobFits d
  | .prsFeed _ => true
  | .prsReset => true
  | .rxByte _ => true
  | .segSplit _ d => blobFits d
  | .segSplitRaw d => blobFits d
  | .txSegmented _ d => blobFits d
  | .txRaw d => blobFits d
  | .rsmAccept d => blobFits d
  | .rsmStatus _ => true
  | .rsmClear => true
  | .regRead _ => true
  | .coreReset => true
  | .prsSyncHit => true
  | .prsSyncDrop b => b != Config.syncByte
  | .prsLenBad b => b == 0 || decide (8 < b.toNat)
  | .prsLenOk b => b != 0
  | .prsData _ => true
  | .prsDataLast _ => true
  | .prsCrcHi _ => true
  | .prsCrcMatch _ => true
  | .prsCrcMismatch _ => true

end Sys2Proof
end

