-- ==== Sys2Proof/Decode.lean ====
section
/-! DEFINITION. The two decoders and the encoder: byte order (20_memory.md R51), the command packets of
30_encoding.md sections 3 and R82, and the parser's byte decode of section 7 (R93). -/

namespace Sys2Proof

/-! ### Byte order -/

/-- `BE16(hi, lo)` (R17). -/
def be16 (hi lo : Byte) : U16 := hi ++ lo

/-- `hi8(v)` = v[15:8] (R17). -/
def hi8 (v : U16) : Byte := v.extractLsb' 8 8

/-- `lo8(v)` = v[7:0] (R17). -/
def lo8 (v : U16) : Byte := v.extractLsb' 0 8

/-- A u16 field, most significant byte first (R51, R80). -/
def u16Bytes (v : U16) : Bytes := [hi8 v, lo8 v]

/-- A u32 field, most significant byte first (R51, R53). -/
def u32Bytes (v : U32) : Bytes :=
  [v.extractLsb' 24 8, v.extractLsb' 16 8, v.extractLsb' 8 8, v.extractLsb' 0 8]

/-- A BLOB: its length as a u16, then its bytes (R80). -/
def blobBytes (d : Bytes) : Bytes := u16Bytes (BitVec.ofNat 16 d.length) ++ d

/-! ### The opcode map (R82) -/

/-- The opcode byte of each command. -/
def Opcode.byte : Opcode → Byte
  | .crcInit => 0x01
  | .crcStep => 0x02
  | .crcCompute => 0x03
  | .frmEncode => 0x10
  | .prsFeed => 0x20
  | .prsReset => 0x21
  | .rxByte => 0x22
  | .segSplit => 0x30
  | .segSplitRaw => 0x31
  | .txSegmented => 0x32
  | .txRaw => 0x33
  | .rsmAccept => 0x40
  | .rsmStatus => 0x41
  | .rsmClear => 0x42
  | .regRead => 0x50
  | .coreReset => 0x60

/-- The packet format of each command. -/
def Opcode.format : Opcode → Format
  | .crcInit => .f2
  | .crcStep => .f1
  | .crcCompute => .f2b
  | .frmEncode => .fb
  | .prsFeed => .f1
  | .prsReset => .f0
  | .rxByte => .f1
  | .segSplit => .f1b
  | .segSplitRaw => .fb
  | .txSegmented => .f1b
  | .txRaw => .fb
  | .rsmAccept => .fb
  | .rsmStatus => .f1
  | .rsmClear => .f0
  | .regRead => .f1
  | .coreReset => .f0

/-- The rows of the opcode map, in the table's order. -/
def Opcode.all : List Opcode :=
  [.crcInit, .crcStep, .crcCompute, .frmEncode, .prsFeed, .prsReset, .rxByte, .segSplit, .segSplitRaw,
   .txSegmented, .txRaw, .rsmAccept, .rsmStatus, .rsmClear, .regRead, .coreReset]

/-- The command an opcode byte names, if it is assigned (R82, R83). -/
def Opcode.ofByte (b : Byte) : Option Opcode := Opcode.all.find? fun o => o.byte == b

/-! ### The command decoder -/

/-- The value of a BLOB that takes up all of `p` (R80, R81). -/
def blobOf : Bytes → Option Bytes
  | hi :: lo :: d => if d.length = (be16 hi lo).toNat then some d else none
  | _ => none

/-- Operands of format F0. -/
def operands0 (p : Bytes) (i : Instr) : Decoded :=
  match p with
  | [] => .instr i
  | _ :: _ => .reject .malformed

/-- Operands of format F1. -/
def operands1 (p : Bytes) (i : Byte → Instr) : Decoded :=
  match p with
  | [a] => .instr (i a)
  | _ => .reject .malformed

/-- Operands of format F2. -/
def operands2 (p : Bytes) (i : U16 → Instr) : Decoded :=
  match p with
  | [hi, lo] => .instr (i (be16 hi lo))
  | _ => .reject .malformed

/-- Operands of format FB. -/
def operandsB (p : Bytes) (i : Bytes → Instr) : Decoded :=
  match blobOf p with
  | some d => .instr (i d)
  | none => .reject .malformed

/-- Operands of format F1B. -/
def operands1B (p : Bytes) (i : Byte → Bytes → Instr) : Decoded :=
  match p with
  | a :: rest => operandsB rest (i a)
  | [] => .reject .malformed

/-- Operands of format F2B. -/
def operands2B (p : Bytes) (i : U16 → Bytes → Instr) : Decoded :=
  match p with
  | hi :: lo :: rest => operandsB rest (i (be16 hi lo))
  | _ => .reject .malformed

/-- The operand fields of a command, each by its format (R82). -/
def Opcode.operands (o : Opcode) (p : Bytes) : Decoded :=
  match o with
  | .crcInit => operands2 p .crcInit
  | .crcStep => operands1 p .crcStep
  | .crcCompute => operands2B p .crcCompute
  | .frmEncode => operandsB p .frmEncode
  | .prsFeed => operands1 p .prsFeed
  | .prsReset => operands0 p .prsReset
  | .rxByte => operands1 p .rxByte
  | .segSplit => operands1B p .segSplit
  | .segSplitRaw => operandsB p .segSplitRaw
  | .txSegmented => operands1B p .txSegmented
  | .txRaw => operandsB p .txRaw
  | .rsmAccept => operandsB p .rsmAccept
  | .rsmStatus => operands1 p .rsmStatus
  | .rsmClear => operands0 p .rsmClear
  | .regRead => operands1 p .regRead
  | .coreReset => operands0 p .coreReset

/-- The command decoder (R79 to R84, R244): total, rejecting by status. The empty packet is MALFORMED, an unassigned
byte 0 is ILLEGAL_OPCODE whatever the length, an assigned one with a wrong length is MALFORMED. -/
def decode (p : Bytes) : Decoded :=
  match p with
  | [] => .reject .malformed
  | op :: rest =>
    match Opcode.ofByte op with
    | none => .reject .illegalOpcode
    | some o => o.operands rest

/-- The BLOB length field that stands at the front of `p`. -/
def blobLength : Bytes → Option Nat
  | hi :: lo :: _ => some (be16 hi lo).toNat
  | _ => none

/-- The length a packet must have, told from its front as R84 says: from byte 0 for F0, F1 and F2, and from byte 0 and
the BLOB length field for FB, F1B and F2B. `none` where byte 0 is missing or unassigned, or the packet is too short to
hold its BLOB length. -/
def packetLength (p : Bytes) : Option Nat :=
  match p with
  | [] => none
  | op :: rest =>
    match Opcode.ofByte op with
    | none => none
    | some o =>
      match o.format with
      | .f0 => some 1
      | .f1 => some 2
      | .f2 => some 3
      | .fb => (blobLength rest).map (3 + ·)
      | .f1b => (blobLength (rest.drop 1)).map (4 + ·)
      | .f2b => (blobLength (rest.drop 2)).map (5 + ·)

/-! ### The parser's byte decode -/

/-- The code of `P_STATE` (10_state.md R24). -/
def PState.code : PState → BitVec 3
  | .sync => 0
  | .len => 1
  | .data => 2
  | .crcHi => 3
  | .crcLo => 4

/-- The parser state a code names; 5, 6 and 7 name none (R24). -/
def PState.ofCode (c : BitVec 3) : Option PState :=
  [PState.sync, .len, .data, .crcHi, .crcLo].find? fun s => s.code == c

/-- The nine rows of the byte decode, in the order they are tried (R93). -/
def Transition.all : List Transition :=
  [.syncHit, .syncDrop, .lenBad, .lenOk, .data, .dataLast, .crcHi, .crcMatch, .crcMismatch]

/-- The state a row stands under (R93, first column). -/
def Transition.state : Transition → PState
  | .syncHit | .syncDrop => .sync
  | .lenBad | .lenOk => .len
  | .data | .dataLast => .data
  | .crcHi => .crcHi
  | .crcMatch | .crcMismatch => .crcLo

/-- The condition of a row (R93, second column). -/
def Transition.condition (t : Transition) (c : KeyContext) (b : Byte) : Bool :=
  match t with
  | .syncHit => b == Config.syncByte
  | .syncDrop => b != Config.syncByte
  | .lenBad => b == 0 || decide (c.maxPayload.toNat < b.toNat)
  | .lenOk => decide (1 ≤ b.toNat) && decide (b.toNat ≤ c.maxPayload.toNat)
  | .data => decide (c.count + 1 < c.len.toNat)
  | .dataLast => decide (c.count + 1 = c.len.toNat)
  | .crcHi => true
  | .crcMatch => be16 c.crcHi b == c.crc
  | .crcMismatch => be16 c.crcHi b != c.crc

/-- A row applies when the parser is in its state and its condition holds (R93). -/
def Transition.applies (t : Transition) (c : KeyContext) (b : Byte) : Bool :=
  t.state == c.state && t.condition c b

/-- The parser's byte decode: the first row that applies (R93). None applies only in state DATA with
len(P_ACC) + 1 > P_LEN, which 10_state.md R30 excludes. -/
def decodeByte (c : KeyContext) (b : Byte) : Option Transition :=
  Transition.all.find? fun t => t.applies c b

/-- The instruction of a transition and the byte it consumes. -/
def Transition.instr (t : Transition) (b : Byte) : Instr :=
  match t with
  | .syncHit => .prsSyncHit
  | .syncDrop => .prsSyncDrop b
  | .lenBad => .prsLenBad b
  | .lenOk => .prsLenOk b
  | .data => .prsData b
  | .dataLast => .prsDataLast b
  | .crcHi => .prsCrcHi b
  | .crcMatch => .prsCrcMatch b
  | .crcMismatch => .prsCrcMismatch b

/-- The instruction an 11-bit decode key names, given the other parser fields; none for the state codes 5 to 7. -/
def decodeKey (c : KeyContext) (code : BitVec 3) (b : Byte) : Option Instr :=
  match PState.ofCode code with
  | none => none
  | some st => (decodeByte { c with state := st } b).map fun t => t.instr b

/-! ### The encoder -/

/-- The bits of a well-formed instruction: the packet of R82, or the decode key of R93. -/
def encode : Instr → Code
  | .crcInit h => .packet (0x01 :: u16Bytes h)
  | .crcStep b => .packet [0x02, b]
  | .crcCompute h d => .packet (0x03 :: u16Bytes h ++ blobBytes d)
  | .frmEncode d => .packet (0x10 :: blobBytes d)
  | .prsFeed b => .packet [0x20, b]
  | .prsReset => .packet [0x21]
  | .rxByte b => .packet [0x22, b]
  | .segSplit tid d => .packet (0x30 :: tid :: blobBytes d)
  | .segSplitRaw d => .packet (0x31 :: blobBytes d)
  | .txSegmented tid d => .packet (0x32 :: tid :: blobBytes d)
  | .txRaw d => .packet (0x33 :: blobBytes d)
  | .rsmAccept d => .packet (0x40 :: blobBytes d)
  | .rsmStatus tid => .packet [0x41, tid]
  | .rsmClear => .packet [0x42]
  | .regRead a => .packet [0x50, a]
  | .coreReset => .packet [0x60]
  | .prsSyncHit => .key 0 0xAA
  | .prsSyncDrop b => .key 0 b
  | .prsLenBad b => .key 1 b
  | .prsLenOk b => .key 1 b
  | .prsData b => .key 2 b
  | .prsDataLast b => .key 2 b
  | .prsCrcHi b => .key 3 b
  | .prsCrcMatch b => .key 4 b
  | .prsCrcMismatch b => .key 4 b

/-! ### Reading an instruction off a row of the opcode table -/

/-- The first `n` bytes of a number, least significant first: the table numbers the first byte's bits lowest. -/
def tableBytes : Nat → Nat → Bytes
  | 0, _ => []
  | n + 1, w => BitVec.ofNat 8 w :: tableBytes n (w / 256)

/-- The packet of a command row: the bytes the table gives bits to, then zero bytes up to the length the packet's own
front asks for (R84). -/
def tablePacket (nbits w : Nat) : Bytes :=
  let p := tableBytes ((nbits + 7) / 8) w
  match packetLength (p ++ List.replicate 4 0) with
  | none => p
  | some n => p ++ List.replicate (n - p.length) 0

/-- A PRS_BYTE row has 11 bits, two whole bytes; every command row gives bits to its opcode byte alone (log entry 6). -/
def isKeyRow (nbits : Nat) : Bool := decide (8 < nbits) && decide (nbits ≤ 16)

/-- The parser fields under which a decode key of the table is read and run (log entry 6): the reset fields in SYNC and
LEN, a frame of two data bytes with none received in DATA, and in CRC_HI and CRC_LO a frame of one data byte 0xF1,
whose CRC is 0xD100. -/
def tableContext (st : PState) : KeyContext :=
  match st with
  | .sync | .len => { maxPayload := 64, state := st, len := 0, count := 0, crc := 0xFFFF, crcHi := 0 }
  | .data => { maxPayload := 64, state := st, len := 2, count := 0, crc := 0xC1B2, crcHi := 0 }
  | .crcHi => { maxPayload := 64, state := st, len := 1, count := 1, crc := 0xD100, crcHi := 0 }
  | .crcLo => { maxPayload := 64, state := st, len := 1, count := 1, crc := 0xD100, crcHi := 0xD1 }

/-- The instruction a row's word gives (bit 0 the least significant bit of the first byte): a decode key for the
PRS_BYTE rows, a command packet for the others. -/
def decodeTableWord (nbits w : Nat) : Option Instr :=
  if isKeyRow nbits then
    if w < 2048 then
      match PState.ofCode (BitVec.ofNat 3 (w / 256)) with
      | none => none
      | some st => decodeKey (tableContext st) (BitVec.ofNat 3 (w / 256)) (BitVec.ofNat 8 w)
    else none
  else
    match decode (tablePacket nbits w) with
    | .instr i => some i
    | .reject _ => none

end Sys2Proof
end

