-- ==== Sys2Proof/Machine/State.lean ====
section
/-! DEFINITION. The state of one instance (10_state.md), its reset values (R40), and the reasons a step can stop. -/

namespace Sys2Proof.Machine

/-- A reassembly buffer's written cells as (offset, byte) pairs. An unlisted offset is HOLE (R33): there is no byte
there. Canonical form: `Memory.wf`. -/
abbrev Memory := List Host.Cell

/-- The offsets rise strictly, so each cell is listed once and equal buffers are equal lists. Every entry is a byte and
an unlisted cell reads as HOLE, so no entry repeats what an unlisted cell reads as. -/
abbrev Memory.wf (m : Memory) : Prop := m.Pairwise fun a b => a.1 < b.1

/-- `SLOT[t]` (R33): the reassembly state of one transfer id. -/
structure Slot where
  /-- The slot holds a transfer. -/
  active : Bool
  /-- The target total length, a u16. -/
  total : U16
  /-- The buffer: `total` cells, each a byte or HOLE. -/
  buf : Memory
  /-- The count of bytes received, 17 bits (D19). -/
  received : BitVec 17
  deriving DecidableEq, Repr

/-- The reset value of a slot (R40). -/
def Slot.reset : Slot := { active := false, total := 0, buf := [], received := 0 }

/-- The parser state (R25): one record for the stream. -/
structure Parser where
  /-- `P_STATE` (R23). -/
  state : PState
  /-- `P_CRC` (R26). -/
  crc : U16
  /-- `P_LEN` (R27). -/
  len : Byte
  /-- `P_ACC` (R28). -/
  acc : Bytes
  /-- `P_CRCHI` (R29). -/
  crcHi : Byte
  deriving DecidableEq, Repr

/-- The parser's reset values (R31, R40). -/
def Parser.reset : Parser := { state := .sync, crc := 0xFFFF, len := 0, acc := [], crcHi := 0 }

/-- The diagnostic counters (R38). -/
structure Counters where
  /-- `CNT_FRAMES_OK` -/
  framesOk : U32
  /-- `CNT_LEN_ERR` -/
  lenErr : U32
  /-- `CNT_CRC_ERR` -/
  crcErr : U32
  /-- `CNT_SYNC_DROP` -/
  syncDrop : U32
  deriving DecidableEq, Repr

/-- The counters' reset values (R38). -/
def Counters.reset : Counters := { framesOk := 0, lenErr := 0, crcErr := 0, syncDrop := 0 }

/-- `FrameEvent(data, raw)` (42_stream_parser.md R147). -/
structure FrameEvent where
  data : Bytes
  raw : Bytes
  deriving DecidableEq, Repr

/-- The three results of the reassembler (44_reassembler.md R190). -/
inductive RsmResult where
  | notSegmented
  | progress (tid : Byte) (soFar : U32)
  | complete (tid : Byte) (payload : Bytes)
  deriving DecidableEq, Repr

/-- The machine: the state S of R20, and beside it the instance's configuration, the command port and the model's
bookkeeping. -/
structure State where
  /-- The configuration of the instance (R41): no part of S, written by nothing (log entry 1). -/
  cfg : Config
  /-- `CRC_ACC` (R22). -/
  crcAcc : U16
  /-- The parser fields `P_STATE`, `P_CRC`, `P_LEN`, `P_ACC`, `P_CRCHI` (R23 to R31). -/
  parser : Parser
  /-- `SLOT[0..255]` (R32, R33). -/
  slots : Vector Slot 256
  /-- The four diagnostic counters (R38). -/
  counters : Counters
  /-- The model's own: the frame event that is part of the response being made (R18, R248; log entry 4). -/
  event : Option FrameEvent
  /-- The model's own: the command packets waiting on the command port, oldest first (R15, R79; log entry 2). -/
  port : List Bytes
  /-- The model's own: the responses given, oldest first (R85; log entry 3). -/
  responses : List Bytes
  /-- The model's own: how many completed buffers have been read out, the index of the free draws (log entry 5). -/
  readouts : Nat
  deriving DecidableEq, Repr

/-- The state right after reset (R40, R270), in the reference configuration, with no command waiting. -/
def State.reset : State where
  cfg := Config.reference
  crcAcc := 0xFFFF
  parser := Parser.reset
  slots := Vector.replicate 256 Slot.reset
  counters := Counters.reset
  event := none
  port := []
  responses := []
  readouts := 0

/-- Why a step can stop with a fault. The block itself never fails (R149, R245, R251): errors are statuses. -/
inductive Fault where
  /-- Raised by the meaning of a parser transition run in a state and on a byte for which R93 does not select it, and
  by PRS_FEED and RX_BYTE in the states where R93 selects none (DATA with len(P_ACC) + 1 > P_LEN, which R30 excludes).
  The spec gives no move there (a stuck state); safe (log entry 7). -/
  | noTransition
  deriving DecidableEq, Repr

/-- Why a step can be refused. -/
inductive Refusal where
  /-- Raised by `exec` for an instruction that has no meaning yet, by its mnemonic; safe. No arm raises it now. -/
  | notModelled (mnemonic : String)
  deriving DecidableEq, Repr

/-- The outcome of an instruction or a step of this machine. -/
abbrev Result := Host.Outcome State Fault Refusal

end Sys2Proof.Machine
end

