-- ==== Sys2Proof/Machine/Flags.lean ====
section
/-! DEFINITION. The status byte, the configuration bits of CFG_MODE, and the diagnostic counters. The block has no
flags or condition codes (10_state.md R21); these are its status-like values. -/

namespace Sys2Proof.Machine

/-- The status byte (60_exceptions.md R240). -/
def statusByte (st : Status) : Byte :=
  match st with
  | .ok => 0x00
  | .invalidArg => 0x01
  | .illegalOpcode => 0x02
  | .malformed => 0x03

/-- CFG_MODE bit 0 (R39): 0 = REJECT, 1 = RESTART. -/
def policyBit (p : MismatchPolicy) : BitVec 1 :=
  match p with
  | .reject => 0
  | .restart => 1

/-- CFG_MODE bit 1 (R39): 0 = COUNTER, 1 = COVERAGE. -/
def modeBit (m : CompletionMode) : BitVec 1 :=
  match m with
  | .counter => 0
  | .coverage => 1

/-- One more frame whose CRC matched, modulo 2^32 (R38, R147). -/
def countFrameOk (c : Counters) : Counters := { c with framesOk := c.framesOk + 1 }

/-- One more rejected LEN byte (R38, R142). -/
def countLenErr (c : Counters) : Counters := { c with lenErr := c.lenErr + 1 }

/-- One more CRC mismatch (R38, R148). -/
def countCrcErr (c : Counters) : Counters := { c with crcErr := c.crcErr + 1 }

/-- One more byte dropped while hunting (R38, R140). -/
def countSyncDrop (c : Counters) : Counters := { c with syncDrop := c.syncDrop + 1 }

end Sys2Proof.Machine
end

