-- ==== Sys2Proof/Machine/Operands.lean ====
section
/-! DEFINITION. The result fields of a response (30_encoding.md R86 to R89). The operand forms of the command packets
are in Sys2Proof/Decode.lean, with the byte order of every field. -/

namespace Sys2Proof.Machine

/-- `EVT` (R87): 0x00, or 0x01 and the event's data and raw BLOBs. -/
def evtBytes (ev : Option FrameEvent) : Bytes :=
  match ev with
  | none => [0x00]
  | some e => 0x01 :: (blobBytes e.data ++ blobBytes e.raw)

/-- `RES` (R88). -/
def resBytes (r : RsmResult) : Bytes :=
  match r with
  | .notSegmented => [0x00]
  | .progress tid n => 0x01 :: tid :: u32Bytes n
  | .complete tid payload => 0x02 :: tid :: blobBytes payload

/-- `LIST` (R89): a u16 count, then the BLOBs in order. -/
def listBytes (l : List Bytes) : Bytes := u16Bytes (BitVec.ofNat 16 l.length) ++ l.flatMap blobBytes

end Sys2Proof.Machine
end

