-- ==== Sys2Proof/Machine/Ops.lean ====
section
/-! DEFINITION. The named operations over the state: answering a command (`respond`, `raise`), the parser reset, the
reassembly slots, the cells of a slot's buffer, and the command port. -/

namespace Sys2Proof.Machine

/-! ### Answering a command -/

/-- End the current command with this response packet (R85). The frame event was part of the response, so none is held
afterwards (R248). -/
def State.answer (s : State) (packet : Bytes) : State :=
  { s with responses := s.responses ++ [packet], event := none }

/-- `respond(OK, fields)` (R18, R85). -/
def State.respond (s : State) (fields : Bytes) : State := s.answer (statusByte .ok :: fields)

/-- `raise <Status>` (R18, R243): the response is the status byte alone and no state changes. This is the block's whole
exception mechanism: nothing is saved, nothing is vectored to and nothing is returned from (R245). -/
def State.raise (s : State) (st : Status) : State := s.answer [statusByte st]

/-! ### The parser -/

/-- What the parser's byte decode reads (R93). -/
def State.keyContext (s : State) : KeyContext :=
  { maxPayload := s.cfg.maxPayload
    state := s.parser.state
    len := s.parser.len
    count := s.parser.acc.length
    crc := s.parser.crc
    crcHi := s.parser.crcHi }

/-- "Reset to SYNC" (R31). -/
def State.resetParser (s : State) : State := { s with parser := Parser.reset }

/-! ### The reassembly slots -/

/-- Read `SLOT[t]`. -/
def State.slot (s : State) (t : Byte) : Slot := s.slots[t.toNat]'(t.isLt)

/-- Write `SLOT[t]`. -/
def State.setSlot (s : State) (t : Byte) (x : Slot) : State := { s with slots := s.slots.set t.toNat x t.isLt }

/-- Every slot back to its reset value (R34). -/
def State.clearSlots (s : State) : State := { s with slots := Vector.replicate 256 Slot.reset }

/-- `RSM_ACTIVE` (R37): the number of active slots. -/
def State.activeSlots (s : State) : Nat := s.slots.toList.countP fun x => x.active

/-! ### The cells of a buffer -/

/-- The byte of a cell, or none where it is HOLE. -/
def Memory.read (m : Memory) (a : Nat) : Option Byte :=
  match m with
  | [] => none
  | c :: rest => if c.1 = a then some c.2 else Memory.read rest a

/-- Write one cell, in its place in the order. -/
def Memory.write (m : Memory) (a : Nat) (b : Byte) : Memory :=
  match m with
  | [] => [(a, b)]
  | c :: rest =>
    if a < c.1 then (a, b) :: c :: rest
    else if c.1 = a then (a, b) :: rest
    else c :: Memory.write rest a b

/-- `MemWrite(buf, a, n, bytes)` (R18, R194): the bytes go to the cells from `a` on, in order. -/
def Memory.writeBytes (m : Memory) (a : Nat) (bytes : Bytes) : Memory :=
  match bytes with
  | [] => m
  | b :: rest => Memory.writeBytes (Memory.write m a b) (a + 1) rest

/-- The number of cells that hold a byte. -/
def Memory.written (m : Memory) : Nat := m.length

/-- No cell below `total` is HOLE. -/
def Memory.noHole (m : Memory) (total : Nat) : Bool := (List.range total).all fun i => (Memory.read m i).isSome

/-- `readout` (R196): each cell's byte, and a free draw for each HOLE. -/
def Memory.readout (m : Memory) (total readout : Nat) : Bytes :=
  (List.range total).map fun i => (Memory.read m i).getD (Config.hole readout i)

/-! ### The command port -/

/-- Take the oldest waiting packet off the port (R15). -/
def State.fetch (s : State) : Option (Bytes × State) :=
  match s.port with
  | [] => none
  | p :: rest => some (p, { s with port := rest })

/-- Put a packet where the next step takes its command from. -/
def State.deliver (s : State) (p : Bytes) : State := { s with port := p :: s.port }

/-- The parser fields that meet the conditions of `tableContext` and the invariants of R30. -/
def tableParser (st : PState) : Parser :=
  match st with
  | .sync => Parser.reset
  | .len => { Parser.reset with state := .len }
  | .data => { state := .data, crc := 0xC1B2, len := 2, acc := [], crcHi := 0 }
  | .crcHi => { state := .crcHi, crc := 0xD100, len := 1, acc := [0xF1], crcHi := 0 }
  | .crcLo => { state := .crcLo, crc := 0xD100, len := 1, acc := [0xF1], crcHi := 0xD1 }

/-- Make the next step run what a word of the opcode table stands for (log entry 6): a command packet is put on the
port; for a decode key the parser is put in the key's state and PRS_FEED of the key's byte is put on the port. -/
def State.placeTableWord (s : State) (nbits w : Nat) : State :=
  if isKeyRow nbits then
    match PState.ofCode (BitVec.ofNat 3 (w / 256)) with
    | none => s
    | some st => { s with parser := tableParser st }.deliver [0x20, BitVec.ofNat 8 w]
  else s.deliver (tablePacket nbits w)

end Sys2Proof.Machine
end

