-- ==== Sys2Proof/Machine/Crc.lean ====
section
/-! DEFINITION. The CRC Engine (40_crc.md): the functions `crc_step` and `compute`, and the commands CRC_INIT, CRC_STEP
and CRC_COMPUTE. -/

namespace Sys2Proof.Machine

/-- One turn of the loop of R100: shift left, and XOR the polynomial in when the bit shifted out was 1. -/
def crcShift (c : U16) : U16 := if c.msb then (c <<< 1) ^^^ Config.crcPoly else c <<< 1

/-- `n` turns of the loop. -/
def crcShifts : Nat → U16 → U16
  | 0, c => c
  | n + 1, c => crcShifts n (crcShift c)

/-- `crc_step(crc, b)` (R100): the byte enters at the top, then 8 turns. DEDUCED: for accumulator FFFF and byte FF this
is FF00, as the table V-CRC of 95_test_vectors.md has it; the corner case of R103 says 0000 there, against R100 (log
entry 12). -/
def crcStep (crc : U16) (b : Byte) : U16 := crcShifts 8 (crc ^^^ (b.setWidth 16 <<< 8))

/-- `compute(bytes, init)` (R101). -/
def compute (bytes : Bytes) (init : U16) : U16 :=
  match bytes with
  | [] => init
  | b :: rest => compute rest (crcStep init b)

/-- CRC_INIT (R102). -/
def execCrcInit (h : U16) (s : State) : Result := .next ({ s with crcAcc := h }.respond [])

/-- CRC_STEP (R103, but for its corner case on FFFF and FF: log entry 12). -/
def execCrcStep (b : Byte) (s : State) : Result :=
  let acc := crcStep s.crcAcc b
  .next ({ s with crcAcc := acc }.respond (u16Bytes acc))

/-- CRC_COMPUTE (R104). -/
def execCrcCompute (h : U16) (d : Bytes) (s : State) : Result := .next (s.respond (u16Bytes (compute d h)))

end Sys2Proof.Machine
end

