-- ==== Sys2Proof/Machine/Frame.lean ====
section
/-! DEFINITION. The Frame Codec, encode direction (41_frame_codec.md): `encode` and the command FRM_ENCODE. -/

namespace Sys2Proof.Machine

/-- `encode(p)` (R120): `0xAA | LEN | DATA | CRC big-endian`, the CRC over LEN and DATA (R70, R72). -/
def encodeFrame (p : Bytes) : Bytes :=
  let len : Byte := BitVec.ofNat 8 p.length
  [Config.syncByte, len] ++ p ++ u16Bytes (compute (len :: p) Config.crcInitFrame)

/-- FRM_ENCODE (R120). -/
def execFrmEncode (d : Bytes) (s : State) : Result :=
  if d.length = 0 ∨ s.cfg.maxPayload.toNat < d.length then .next (s.raise .invalidArg)
  else .next (s.respond (blobBytes (encodeFrame d)))

end Sys2Proof.Machine
end

