-- ==== Sys2Proof/Machine/Parser.lean ====
section
/-! DEFINITION. The Stream Parser (42_stream_parser.md): the effects of its nine transitions, `prs_step`, the meanings
of the transitions as instructions, and the commands PRS_FEED and PRS_RESET. -/

namespace Sys2Proof.Machine

/-! ### The effects of the transitions -/

/-- R140: the byte is dropped and counted. -/
def syncDrop (s : State) : State := { s with counters := countSyncDrop s.counters, event := none }

/-- R141: a frame attempt starts. -/
def syncHit (s : State) : State :=
  { s with parser := { s.parser with state := .len, crc := Config.crcInitFrame, acc := [] }, event := none }

/-- R142: the attempt is abandoned and counted. -/
def lenBad (s : State) : State :=
  { s.resetParser with counters := countLenErr s.counters, event := none }

/-- R143: the length is recorded and folded into the CRC. -/
def lenOk (b : Byte) (s : State) : State :=
  { s with parser := { s.parser with state := .data, len := b, crc := crcStep s.parser.crc b }, event := none }

/-- R144: a data byte is appended and folded into the CRC. -/
def dataByte (b : Byte) (s : State) : State :=
  { s with
    parser := { s.parser with acc := s.parser.acc ++ [b], crc := crcStep s.parser.crc b }, event := none }

/-- R145: the last data byte. -/
def dataLast (b : Byte) (s : State) : State :=
  { s with
    parser := { s.parser with state := .crcHi, acc := s.parser.acc ++ [b], crc := crcStep s.parser.crc b },
    event := none }

/-- R146: the received CRC's high byte is stored. -/
def crcHiByte (b : Byte) (s : State) : State :=
  { s with parser := { s.parser with state := .crcLo, crcHi := b }, event := none }

/-- The frame event of R147: the data bytes, and the raw bytes from the sync byte to the CRC's low byte `b`. -/
def frameEvent (p : Parser) (b : Byte) : FrameEvent where
  data := p.acc
  raw := [Config.syncByte, p.len] ++ p.acc ++ [p.crcHi, b]

/-- R147: the frame is emitted and counted. -/
def crcMatch (b : Byte) (s : State) : State :=
  { s.resetParser with counters := countFrameOk s.counters, event := some (frameEvent s.parser b) }

/-- R148: the frame is discarded and counted. -/
def crcMismatch (s : State) : State :=
  { s.resetParser with counters := countCrcErr s.counters, event := none }

/-- The effect of a transition on the byte it consumes. -/
def runTransition (t : Transition) (b : Byte) (s : State) : State :=
  match t with
  | .syncHit => syncHit s
  | .syncDrop => syncDrop s
  | .lenBad => lenBad s
  | .lenOk => lenOk b s
  | .data => dataByte b s
  | .dataLast => dataLast b s
  | .crcHi => crcHiByte b s
  | .crcMatch => crcMatch b s
  | .crcMismatch => crcMismatch s

/-- `prs_step(S, b)`: the transition R93 selects, if it selects one; the event is left in `event`. -/
def prsStep (b : Byte) (s : State) : Option State := (decodeByte s.keyContext b).map fun t => runTransition t b s

/-! ### The transitions as instructions -/

/-- Run a transition where R93 lets it apply; nowhere else is there a move (log entry 7). -/
def guarded (t : Transition) (b : Byte) (s : State) (after : State) : Result :=
  if t.applies s.keyContext b then .next after else .fault .noTransition

/-- PRS.SYNC_HIT (R141). -/
def execPrsSyncHit (s : State) : Result := guarded .syncHit Config.syncByte s (syncHit s)

/-- PRS.SYNC_DROP (R140). -/
def execPrsSyncDrop (b : Byte) (s : State) : Result := guarded .syncDrop b s (syncDrop s)

/-- PRS.LEN_BAD (R142). -/
def execPrsLenBad (b : Byte) (s : State) : Result := guarded .lenBad b s (lenBad s)

/-- PRS.LEN_OK (R143). -/
def execPrsLenOk (b : Byte) (s : State) : Result := guarded .lenOk b s (lenOk b s)

/-- PRS.DATA (R144). -/
def execPrsData (b : Byte) (s : State) : Result := guarded .data b s (dataByte b s)

/-- PRS.DATA_LAST (R145). -/
def execPrsDataLast (b : Byte) (s : State) : Result := guarded .dataLast b s (dataLast b s)

/-- PRS.CRC_HI (R146). -/
def execPrsCrcHi (b : Byte) (s : State) : Result := guarded .crcHi b s (crcHiByte b s)

/-- PRS.CRC_MATCH (R147). -/
def execPrsCrcMatch (b : Byte) (s : State) : Result := guarded .crcMatch b s (crcMatch b s)

/-- PRS.CRC_MISMATCH (R148). -/
def execPrsCrcMismatch (b : Byte) (s : State) : Result := guarded .crcMismatch b s (crcMismatch s)

/-! ### The commands -/

/-- PRS_FEED (R150). -/
def execPrsFeed (b : Byte) (s : State) : Result :=
  match prsStep b s with
  | none => .fault .noTransition
  | some s1 => .next (s1.respond (evtBytes s1.event))

/-- PRS_RESET (R151). -/
def execPrsReset (s : State) : Result := .next (s.resetParser.respond [])

end Sys2Proof.Machine
end

