-- ==== Sys2Proof/Machine/Reassembler.lean ====
section
/-! DEFINITION. The Segment Reassembler and the receive pipeline (44_reassembler.md): `rsm_accept` step by step, and
the commands RSM_ACCEPT, RSM_STATUS, RSM_CLEAR and RX_BYTE. -/

namespace Sys2Proof.Machine

/-- What `rsm_parse` reads from a data chunk (R191). -/
structure Segment where
  tid : Byte
  total : U16
  off : U16
  len : Byte
  chunk : Bytes
  deriving DecidableEq, Repr

/-- `rsm_parse(data)` (R191): none is NOTSEG. The bound is checked in unbounded arithmetic (30_encoding.md R76). -/
def rsmParse (data : Bytes) : Option Segment :=
  match data with
  | typ :: tid :: t1 :: t0 :: o1 :: o0 :: k :: chunk =>
    if typ = Config.segTypeData ∧ k.toNat = chunk.length ∧
        (be16 o1 o0).toNat + k.toNat ≤ (be16 t1 t0).toNat then
      some { tid := tid, total := be16 t1 t0, off := be16 o1 o0, len := k, chunk := chunk }
    else none
  | _ => none

/-- Slot creation (R193): active, the header's total, every cell HOLE, nothing received. -/
def Slot.create (total : U16) : Slot := { active := true, total := total, buf := [], received := 0 }

/-- The segment's total differs from that of the active transfer (R192). -/
def Slot.mismatch (x : Slot) (g : Segment) : Bool := x.active && x.total != g.total

/-- The slot the chunk is written to: under RESTART a mismatching transfer is dropped (R192), and a slot that is not
active is created (R193). -/
def Slot.opened (x : Slot) (g : Segment) : Slot :=
  if x.active ∧ ¬ x.mismatch g then x else Slot.create g.total

/-- Write and count (R194): COUNTER adds the chunk length unconditionally, COVERAGE leaves the count at 0. -/
def Slot.accept (x : Slot) (mode : CompletionMode) (g : Segment) : Slot :=
  { x with
    buf := Memory.writeBytes x.buf g.off.toNat g.chunk
    received :=
      match mode with
      | .counter => x.received + g.len.setWidth 17
      | .coverage => x.received }

/-- The completion test (R195). -/
def Slot.done (x : Slot) (mode : CompletionMode) : Bool :=
  match mode with
  | .counter => decide (x.total.toNat ≤ x.received.toNat)
  | .coverage => Memory.noHole x.buf x.total.toNat

/-- `so_far(t)` (R36), 0 for an inactive slot. -/
def Slot.soFar (x : Slot) (mode : CompletionMode) : U32 :=
  if x.active then
    match mode with
    | .counter => x.received.setWidth 32
    | .coverage => BitVec.ofNat 32 (Memory.written x.buf)
  else 0

/-- R194 and R195 on the slot that R192 and R193 opened. A readout uses up one index of the free draws. -/
def rsmWrite (s : State) (g : Segment) (x : Slot) : State × RsmResult :=
  let y := x.accept s.cfg.mode g
  if y.done s.cfg.mode then
    ({ s.setSlot g.tid Slot.reset with readouts := s.readouts + 1 },
      .complete g.tid (Memory.readout y.buf y.total.toNat s.readouts))
  else (s.setSlot g.tid y, .progress g.tid (y.soFar s.cfg.mode))

/-- `rsm_accept(S, data)` (R197). -/
def rsmAccept (s : State) (data : Bytes) : State × RsmResult :=
  match rsmParse data with
  | none => (s, .notSegmented)
  | some g =>
    if (s.slot g.tid).mismatch g ∧ s.cfg.policy = .reject then (s, .notSegmented)
    else rsmWrite s g ((s.slot g.tid).opened g)

/-- RSM_ACCEPT (R197). -/
def execRsmAccept (d : Bytes) (s : State) : Result :=
  let r := rsmAccept s d
  .next (r.1.respond (resBytes r.2))

/-- RSM_STATUS (R198). -/
def execRsmStatus (tid : Byte) (s : State) : Result :=
  let x := s.slot tid
  .next (s.respond ((if x.active then 1 else 0) :: (u16Bytes x.total ++ u32Bytes (x.soFar s.cfg.mode))))

/-- RSM_CLEAR (R199). -/
def execRsmClear (s : State) : Result := .next (s.clearSlots.respond [])

/-- RX_BYTE (R200): the parser's step, and, on a frame event, the reassembler's on the event's data. -/
def execRxByte (b : Byte) (s : State) : Result :=
  match prsStep b s with
  | none => .fault .noTransition
  | some s1 =>
    match s1.event with
    | none => .next (s1.respond (evtBytes none))
    | some ev =>
      let r := rsmAccept s1 ev.data
      .next (r.1.respond (evtBytes (some ev) ++ resBytes r.2))

end Sys2Proof.Machine
end

