-- ==== Sys2Proof/Machine/Segment.lean ====
section
/-! DEFINITION. The Segment Codec and the transmit path (43_segment_codec.md): `split`, `split_raw`, and the commands
SEG_SPLIT, SEG_SPLIT_RAW, TX_SEGMENTED and TX_RAW. -/

namespace Sys2Proof.Machine

/-- `CHUNK_MAX` = MAX_PAYLOAD - 7 (R10). -/
def chunkMax (c : Config) : Nat := c.maxPayload.toNat - Config.segHdrLen

/-- The greedy slicing loop of R170 and R171: while data is left, take a piece of at most `size` bytes, with its
offset. `fuel` bounds the turns; each takes at least one byte when `size` is not 0, so the data's length is enough. -/
def slices (size : Nat) : (fuel : Nat) → (off : Nat) → Bytes → List (Nat × Bytes)
  | 0, _, _ => []
  | _ + 1, _, [] => []
  | fuel + 1, off, b :: rest =>
    let piece := (b :: rest).take size
    (off, piece) :: slices size fuel (off + piece.length) ((b :: rest).drop size)

/-- The segment header (30_encoding.md R74): `type | transfer_id | total_length | offset | chunk_length`. -/
def segHeader (tid : Byte) (total off len : Nat) : Bytes :=
  [Config.segTypeData, tid] ++ u16Bytes (BitVec.ofNat 16 total) ++ u16Bytes (BitVec.ofNat 16 off) ++
    [BitVec.ofNat 8 len]

/-- `split(data, tid)` (R170). -/
def split (c : Config) (tid : Byte) (data : Bytes) : List Bytes :=
  (slices (chunkMax c) data.length 0 data).map fun p => segHeader tid data.length p.1 p.2.length ++ p.2

/-- `split_raw(data)` (R171). -/
def splitRaw (c : Config) (data : Bytes) : List Bytes :=
  (slices c.maxPayload.toNat data.length 0 data).map fun p => p.2

/-- SEG_SPLIT (R170). -/
def execSegSplit (tid : Byte) (d : Bytes) (s : State) : Result := .next (s.respond (listBytes (split s.cfg tid d)))

/-- SEG_SPLIT_RAW (R171). -/
def execSegSplitRaw (d : Bytes) (s : State) : Result := .next (s.respond (listBytes (splitRaw s.cfg d)))

/-- TX_SEGMENTED (R172). -/
def execTxSegmented (tid : Byte) (d : Bytes) (s : State) : Result :=
  .next (s.respond (listBytes ((split s.cfg tid d).map encodeFrame)))

/-- TX_RAW (R173). -/
def execTxRaw (d : Bytes) (s : State) : Result :=
  .next (s.respond (listBytes ((splitRaw s.cfg d).map encodeFrame)))

end Sys2Proof.Machine
end

