-- ==== Sys2Proof/Machine/System.lean ====
section
/-! DEFINITION. The system commands (45_system.md): REG_READ over the register map of 10_state.md R39, and
CORE_RESET. -/

namespace Sys2Proof.Machine

/-- CFG_MODE (R39): bit 0 the mismatch policy, bit 1 the completion mode. -/
def cfgMode (c : Config) : U32 := (modeBit c.mode ++ policyBit c.policy).setWidth 32

/-- The register at an address of the map (R39), zero-extended; none where the map has no register. -/
def register (s : State) (a : Byte) : Option U32 :=
  match a.toNat with
  | 0x00 => some (s.crcAcc.setWidth 32)
  | 0x01 => some (s.parser.state.code.setWidth 32)
  | 0x02 => some (s.parser.len.setWidth 32)
  | 0x03 => some ((BitVec.ofNat 8 s.parser.acc.length).setWidth 32)
  | 0x04 => some (s.parser.crc.setWidth 32)
  | 0x05 => some (s.parser.crcHi.setWidth 32)
  | 0x06 => some ((BitVec.ofNat 9 s.activeSlots).setWidth 32)
  | 0x07 => some (s.cfg.maxPayload.setWidth 32)
  | 0x08 => some (cfgMode s.cfg)
  | 0x10 => some s.counters.framesOk
  | 0x11 => some s.counters.lenErr
  | 0x12 => some s.counters.crcErr
  | 0x13 => some s.counters.syncDrop
  | _ => none

/-- REG_READ (R220). -/
def execRegRead (a : Byte) (s : State) : Result :=
  match register s a with
  | some v => .next (s.respond (u32Bytes v))
  | none => .next (s.raise .invalidArg)

/-- The reset state of R40 for the instance `s`: the configuration survives (R41), and so do the port, the responses
already given and the index of the free draws, which are not part of the block's state. -/
def coreReset (s : State) : State :=
  { State.reset with cfg := s.cfg, port := s.port, responses := s.responses, readouts := s.readouts }

/-- CORE_RESET (R222). -/
def execCoreReset (s : State) : Result := .next ((coreReset s).respond [])

end Sys2Proof.Machine
end

