-- ==== Sys2Proof/Machine/Dispatch.lean ====
section
/-! DEFINITION. The meaning of each instruction: one arm per row of spec/opcode_table.json. -/

namespace Sys2Proof.Machine

open Sys2Proof

def exec (i : Instr) (s : State) : Host.Outcome State Fault Refusal :=
  match i with
  | .crcInit h => Sys2Proof.Machine.execCrcInit h s
  | .crcStep b => Sys2Proof.Machine.execCrcStep b s
  | .crcCompute h d => Sys2Proof.Machine.execCrcCompute h d s
  | .frmEncode d => Sys2Proof.Machine.execFrmEncode d s
  | .prsFeed b => Sys2Proof.Machine.execPrsFeed b s
  | .prsReset => Sys2Proof.Machine.execPrsReset s
  | .rxByte b => Sys2Proof.Machine.execRxByte b s
  | .segSplit tid d => Sys2Proof.Machine.execSegSplit tid d s
  | .segSplitRaw d => Sys2Proof.Machine.execSegSplitRaw d s
  | .txSegmented tid d => Sys2Proof.Machine.execTxSegmented tid d s
  | .txRaw d => Sys2Proof.Machine.execTxRaw d s
  | .rsmAccept d => Sys2Proof.Machine.execRsmAccept d s
  | .rsmStatus tid => Sys2Proof.Machine.execRsmStatus tid s
  | .rsmClear => Sys2Proof.Machine.execRsmClear s
  | .regRead a => Sys2Proof.Machine.execRegRead a s
  | .coreReset => Sys2Proof.Machine.execCoreReset s
  -- The parser transitions (rows of format PRS_BYTE).
  | .prsSyncHit => Sys2Proof.Machine.execPrsSyncHit s
  | .prsSyncDrop b => Sys2Proof.Machine.execPrsSyncDrop b s
  | .prsLenBad b => Sys2Proof.Machine.execPrsLenBad b s
  | .prsLenOk b => Sys2Proof.Machine.execPrsLenOk b s
  | .prsData b => Sys2Proof.Machine.execPrsData b s
  | .prsDataLast b => Sys2Proof.Machine.execPrsDataLast b s
  | .prsCrcHi b => Sys2Proof.Machine.execPrsCrcHi b s
  | .prsCrcMatch b => Sys2Proof.Machine.execPrsCrcMatch b s
  | .prsCrcMismatch b => Sys2Proof.Machine.execPrsCrcMismatch b s

end Sys2Proof.Machine
end

