-- ==== Sys2Proof/Machine/Step.lean ====
section
/-! DEFINITION. One step of the block: take the oldest packet from the command port, decode it, run it (20_memory.md
R60, R61). -/

namespace Sys2Proof.Machine

open Sys2Proof

/-- One step. With no command waiting the block does nothing and keeps its state (60_exceptions.md R257). A packet the
decoder rejects is answered with its status and changes nothing (R243, R244). -/
def step (s : State) : Host.Outcome State Fault Refusal :=
  match s.fetch with
  | none => .next s
  | some (p, s1) =>
    match decode p with
    | .instr i => exec i s1
    | .reject why => .next (s1.raise why)

/-- `s` with the instruction of an opcode-table word where the next step runs it (log entry 6). -/
def State.withFetchWord (s : State) (nbits w : Nat) : State := s.placeTableWord nbits w

end Sys2Proof.Machine
end

