-- ==== Sys2Proof/Safety.lean ====
section
/-! DEFINITION. The terms the claims use: what it means that nothing changed, the invariants of 10_state.md R30 and R35,
the rows of the parser's byte decode (30_encoding.md R93), the packet formats (R82), the closed forms of the splitter
(43_segment_codec.md R174) and sequences of commands. -/

namespace Sys2Proof.Machine

open Sys2Proof

/-! ### Frames -/

/-- The state S of R20 and the configuration are the same in `s` and `t`. -/
def State.SameBlock (s t : State) : Prop :=
  t.cfg = s.cfg ∧ t.crcAcc = s.crcAcc ∧ t.parser = s.parser ∧ t.slots = s.slots ∧ t.counters = s.counters

/-- From `s` to `t` exactly one response was given, `r`, and no other command was taken. -/
def State.Answered (s t : State) (r : Bytes) : Prop :=
  t.responses = s.responses ++ [r] ∧ t.port = s.port ∧ t.event = none

/-! ### Invariants -/

/-- The parser invariants of R30, with the bounds of P_LEN that R27 gives. -/
def Parser.Inv (maxPayload : Byte) (p : Parser) : Prop :=
  match p.state with
  | .sync => p = Parser.reset
  | .len => p.crc = 0xFFFF ∧ p.acc = []
  | .data =>
    1 ≤ p.len.toNat ∧ p.len.toNat ≤ maxPayload.toNat ∧ p.acc.length < p.len.toNat ∧
      p.crc = compute (p.len :: p.acc) 0xFFFF
  | .crcHi | .crcLo =>
    1 ≤ p.len.toNat ∧ p.len.toNat ≤ maxPayload.toNat ∧ p.acc.length = p.len.toNat ∧
      p.crc = compute (p.len :: p.acc) 0xFFFF

/-- The slot invariants of R35. An active slot's buffer is in canonical form with every written cell below `total`
(20_memory.md R56), and `received` stays 0 under COVERAGE (R194). -/
def Slot.Inv (mode : CompletionMode) (x : Slot) : Prop :=
  if x.active then
    Memory.wf x.buf ∧ (∀ c ∈ x.buf, c.1 < x.total.toNat) ∧
      match mode with
      | .counter => x.received.toNat < x.total.toNat
      | .coverage => x.received = 0 ∧ Memory.written x.buf < x.total.toNat
  else x = Slot.reset

/-- What holds of the machine between commands: a legal configuration (R7), the parser's and every slot's invariants
(R30, R35), and no event pending (R248). -/
def State.Inv (s : State) : Prop :=
  s.cfg.Legal ∧ s.parser.Inv s.cfg.maxPayload ∧ (∀ t, (s.slot t).Inv s.cfg.mode) ∧ s.event = none

/-! ### The parser's byte decode -/

end Sys2Proof.Machine

namespace Sys2Proof

open Sys2Proof.Machine

/-- The rows of R93: the state and the condition under which each transition is taken on byte `b`. -/
def Transition.Row (t : Transition) (s : State) (b : Byte) : Prop :=
  match t with
  | .syncHit => s.parser.state = .sync ∧ b = 0xAA
  | .syncDrop => s.parser.state = .sync ∧ b ≠ 0xAA
  | .lenBad => s.parser.state = .len ∧ (b = 0 ∨ s.cfg.maxPayload.toNat < b.toNat)
  | .lenOk => s.parser.state = .len ∧ 1 ≤ b.toNat ∧ b.toNat ≤ s.cfg.maxPayload.toNat
  | .data => s.parser.state = .data ∧ s.parser.acc.length + 1 < s.parser.len.toNat
  | .dataLast => s.parser.state = .data ∧ s.parser.acc.length + 1 = s.parser.len.toNat
  | .crcHi => s.parser.state = .crcHi
  | .crcMatch => s.parser.state = .crcLo ∧ be16 s.parser.crcHi b = s.parser.crc
  | .crcMismatch => s.parser.state = .crcLo ∧ be16 s.parser.crcHi b ≠ s.parser.crc

end Sys2Proof

namespace Sys2Proof.Machine

open Sys2Proof

/-! ### Packets -/

/-- The opcode bytes of R82. -/
def assignedOpcodes : Bytes :=
  [0x01, 0x02, 0x03, 0x10, 0x20, 0x21, 0x22, 0x30, 0x31, 0x32, 0x33, 0x40, 0x41, 0x42, 0x50, 0x60]

/-- The register addresses of R39. -/
def mappedRegisters : Bytes :=
  [0x00, 0x01, 0x02, 0x03, 0x04, 0x05, 0x06, 0x07, 0x08, 0x10, 0x11, 0x12, 0x13]

/-- Opcode `op` has format F0 (R81, R82). -/
def FormatF0 (op : Byte) (i : Instr) : Prop :=
  decode [op] = .instr i ∧ ∀ rest, rest.length ≠ 0 → decode (op :: rest) = .reject .malformed

/-- Opcode `op` has format F1. -/
def FormatF1 (op : Byte) (i : Byte → Instr) : Prop :=
  (∀ a, decode [op, a] = .instr (i a)) ∧ ∀ rest, rest.length ≠ 1 → decode (op :: rest) = .reject .malformed

/-- Opcode `op` has format F2. -/
def FormatF2 (op : Byte) (i : U16 → Instr) : Prop :=
  (∀ hi lo, decode [op, hi, lo] = .instr (i (be16 hi lo))) ∧
    ∀ rest, rest.length ≠ 2 → decode (op :: rest) = .reject .malformed

/-- Opcode `op` has format FB. -/
def FormatFB (op : Byte) (i : Bytes → Instr) : Prop :=
  (∀ hi lo d, decode (op :: hi :: lo :: d) =
      if d.length = hi.toNat * 256 + lo.toNat then .instr (i d) else .reject .malformed) ∧
    ∀ rest, rest.length < 2 → decode (op :: rest) = .reject .malformed

/-- Opcode `op` has format F1B. -/
def FormatF1B (op : Byte) (i : Byte → Bytes → Instr) : Prop :=
  (∀ a hi lo d, decode (op :: a :: hi :: lo :: d) =
      if d.length = hi.toNat * 256 + lo.toNat then .instr (i a d) else .reject .malformed) ∧
    ∀ rest, rest.length < 3 → decode (op :: rest) = .reject .malformed

/-- Opcode `op` has format F2B. -/
def FormatF2B (op : Byte) (i : U16 → Bytes → Instr) : Prop :=
  (∀ h1 h0 hi lo d, decode (op :: h1 :: h0 :: hi :: lo :: d) =
      if d.length = hi.toNat * 256 + lo.toNat then .instr (i (be16 h1 h0) d) else .reject .malformed) ∧
    ∀ rest, rest.length < 4 → decode (op :: rest) = .reject .malformed

/-- The status R244 gives a packet: empty, then opcode, then length, then the argument checks of R241, then OK. -/
def expectedStatus (c : Config) (p : Bytes) : Byte :=
  match p with
  | [] => 0x03
  | op :: rest =>
    if op ∉ assignedOpcodes then 0x02
    else if packetLength (op :: rest) ≠ some (rest.length + 1) then 0x03
    else if op = 0x10 ∧ (rest.length = 2 ∨ c.maxPayload.toNat + 2 < rest.length) then 0x01
    else if op = 0x50 ∧ ∀ a ∈ rest, a ∉ mappedRegisters then 0x01
    else 0x00

/-! ### The splitter in closed form -/

/-- ceil(n / c) (R174). -/
def pieceCount (c n : Nat) : Nat := (n + c - 1) / c

/-- The pieces of `split` (R170, R174): piece i carries the bytes from i·C on, C = MAX_PAYLOAD - 7. -/
def expectedPieces (cfg : Config) (tid : Byte) (d : Bytes) : List Bytes :=
  let c := cfg.maxPayload.toNat - 7
  (List.range (pieceCount c d.length)).map fun i =>
    [0x01, tid] ++ u16Bytes (BitVec.ofNat 16 d.length) ++ u16Bytes (BitVec.ofNat 16 (i * c)) ++
      [BitVec.ofNat 8 (min c (d.length - i * c))] ++ (d.drop (i * c)).take c

/-- The pieces of `split_raw` (R171, R174). -/
def expectedRawPieces (cfg : Config) (d : Bytes) : List Bytes :=
  let c := cfg.maxPayload.toNat
  (List.range (pieceCount c d.length)).map fun i => (d.drop (i * c)).take c

/-! ### Sequences -/

/-- Run commands in order, stopping at the first fault or refusal (R61: the left fold of the command step). -/
def execAll (l : List Instr) (s : State) : Result :=
  match l with
  | [] => .next s
  | i :: rest =>
    match exec i s with
    | .next t => execAll rest t
    | .fault r => .fault r
    | .refused r => .refused r

/-- The response to the PRS_FEED that completes the frame of payload `p` (R87, R121): OK, the event with data `p` and
raw bytes encode(p). -/
def eventPacket (p : Bytes) : Bytes := [0x00, 0x01] ++ blobBytes p ++ blobBytes (encodeFrame p)

/-- A frame's data carries this transfer id in the place of the segment header (R74). -/
def carriesId (tid : Byte) (d : Bytes) : Bool := d[1]? == some tid

/-- `so_far` by its definition (R36), on a buffer of `total` cells. -/
def cellsWritten (total : Nat) (cell : Nat → Option Byte) : Nat :=
  ((List.range total).filter fun i => (cell i).isSome).length

end Sys2Proof.Machine
end

