-- ==== Sys2Proof/Certificates/Slice0/Obligations.lean ====
section
/-! DEFINITION. The statements for the provers, each from the numbered rules of spec/ that its docstring names. -/

section

open Sys2Proof Sys2Proof.Machine

/-! ### Encodings -/

/-- Words written out from the encodings of R82 and R93 decode to what they stand for: five packets, encoded as R102,
R104, R170, R197 and R222 say, and three decode keys. A key is read through `decodeTableWord`, under the word widths and
the parser fields that the model chooses (log entry 6). -/
def Obligations.ExampleWordsDecode : Prop :=
  decode [0x01, 0xFF, 0xFE] = .instr (.crcInit 0xFFFE) ∧
  decode [0x03, 0x12, 0x34, 0x00, 0x01, 0x61] = .instr (.crcCompute 0x1234 [0x61]) ∧
  decode [0x30, 0x07, 0x00, 0x03, 0x11, 0x22, 0x33] = .instr (.segSplit 0x07 [0x11, 0x22, 0x33]) ∧
  decode [0x40, 0x00, 0x00] = .instr (.rsmAccept []) ∧
  decode [0x60] = .instr .coreReset ∧
  decodeTableWord 16 0x0AA = some .prsSyncHit ∧
  decodeTableWord 16 0x100 = some (.prsLenBad 0x00) ∧
  decodeTableWord 16 0x341 = some (.prsCrcHi 0x41)

/-- Every well-formed command is read back from its packet (R79, R80, R82). -/
def Obligations.CommandPacketsRoundTrip : Prop :=
  ∀ (i : Instr) (p : Bytes), i.wellFormed = true → encode i = .packet p → decode p = .instr i

/-- A packet that decodes is the one packet of the well-formed command it decodes to (R81, R84). -/
def Obligations.DecodedPacketsReencode : Prop :=
  ∀ (p : Bytes) (i : Instr), decode p = .instr i → encode i = .packet p ∧ i.wellFormed = true

/-- The decode key of a transition and its byte decodes to that transition, with every byte, whenever its row of R93
holds of the parser. -/
def Obligations.DecodeKeysRoundTrip : Prop :=
  ∀ (t : Transition) (s : State) (b : Byte), t.Row s b →
    ∃ code, encode (t.instr b) = .key code b ∧ code = s.parser.state.code ∧
      decodeKey s.keyContext code b = some (t.instr b)

/-- R244, with R81, R83, R241 and R242: the status of every packet's response. -/
def Obligations.StatusOfEveryPacket : Prop :=
  ∀ (s : State) (p : Bytes) (rest : List Bytes), s.Inv → s.port = p :: rest →
    ∃ t r, step s = .next t ∧ t.responses = s.responses ++ [expectedStatus s.cfg p :: r] ∧
      (expectedStatus s.cfg p ≠ 0x00 → r = [])

/-! ### The step -/

/-- A packet that decodes runs as its instruction, on the state with the packet taken off the port (R15, R60). -/
def Obligations.StepRunsDecodedInstruction : Prop :=
  ∀ (s : State) (p : Bytes) (rest : List Bytes) (i : Instr), s.port = p :: rest → decode p = .instr i →
    step s = exec i { s with port := rest }

/-- A packet the decoder rejects is answered with its status byte alone, and nothing else changes: the empty packet
(R244), an unassigned opcode (R221), a length that breaks R81 (R242, R244); the state is kept (R243). That the packet
leaves the port and the response joins the list is the model's record of it (log entries 2 and 3). -/
def Obligations.RejectedPacketsAreAnswered : Prop :=
  (∀ (s : State) (rest : List Bytes), s.port = [] :: rest →
    step s = .next { s with port := rest, event := none, responses := s.responses ++ [[0x03]] }) ∧
  (∀ (s : State) (op : Byte) (fields : Bytes) (rest : List Bytes), s.port = (op :: fields) :: rest →
    op ∉ assignedOpcodes →
    step s = .next { s with port := rest, event := none, responses := s.responses ++ [[0x02]] }) ∧
  (∀ (s : State) (op : Byte) (fields : Bytes) (rest : List Bytes), s.port = (op :: fields) :: rest →
    op ∈ assignedOpcodes → packetLength (op :: fields) ≠ some (fields.length + 1) →
    step s = .next { s with port := rest, event := none, responses := s.responses ++ [[0x03]] })

/-- With no command waiting the block does nothing (R257; that the machine's step is then the identity is the model's
choice, log entry 2). -/
def Obligations.IdleStepKeepsState : Prop := ∀ s : State, s.port = [] → step s = .next s

/-- From R85, R240 and R251, with the port and the list of responses of log entries 2 and 3: every packet is taken and
gets exactly one response, which is one of the three error bytes alone or begins with OK. -/
def Obligations.EveryCommandGetsOneResponse : Prop :=
  ∀ (s : State) (p : Bytes) (rest : List Bytes), s.Inv → s.port = p :: rest →
    ∃ t r, step s = .next t ∧ t.port = rest ∧ t.responses = s.responses ++ [r] ∧
      (r = [0x01] ∨ r = [0x02] ∨ r = [0x03] ∨ r.head? = some 0x00)

/-- The invariants the spec derives as R30 and R35, with R248 (nothing is pending between commands), hold after every
step. -/
def Obligations.StepKeepsInvariants : Prop := ∀ s t : State, s.Inv → step s = .next t → t.Inv

/-- R270 with R40: the state right after power-on reset is the one R40 gives, and the invariants hold of it. -/
def Obligations.ResetMeetsInvariants : Prop :=
  State.reset.Inv ∧ State.reset.crcAcc = 0xFFFF ∧
    State.reset.parser = { state := .sync, crc := 0xFFFF, len := 0, acc := [], crcHi := 0x00 } ∧
    (∀ t, State.reset.slot t = { active := false, total := 0, buf := [], received := 0 }) ∧
    State.reset.counters = { framesOk := 0, lenErr := 0, crcErr := 0, syncDrop := 0 }

/-- R243: a command answered with a status other than OK changes no state at all. -/
def Obligations.ErrorsChangeNothing : Prop :=
  ∀ (s t : State) (p r : Bytes) (rest : List Bytes), s.port = p :: rest → step s = .next t →
    t.responses = s.responses ++ [r] → r.head? ≠ some 0x00 → s.SameBlock t ∧ r.length = 1

/-! ### The CRC Engine -/

/-- R102: CRC_INIT. -/
def Obligations.CrcInitLoadsAccumulator : Prop :=
  FormatF2 0x01 .crcInit ∧
  ∀ (h : U16) (s : State), exec (.crcInit h) s =
    .next { s with crcAcc := h, event := none, responses := s.responses ++ [[0x00]] }

/-- From R103: CRC_STEP, with `crcStep` as R100 gives it. Where R103's corner case contradicts R100 (accumulator FFFF,
byte FF) the model's choice is R100's value (log entry 12). -/
def Obligations.CrcStepAdvancesAccumulator : Prop :=
  FormatF1 0x02 .crcStep ∧
  ∀ (b : Byte) (s : State), exec (.crcStep b) s =
    .next { s with
      crcAcc := crcStep s.crcAcc b, event := none,
      responses := s.responses ++ [[0x00, hi8 (crcStep s.crcAcc b), lo8 (crcStep s.crcAcc b)]] }

/-- R104: CRC_COMPUTE. -/
def Obligations.CrcComputeAnswersCrc : Prop :=
  FormatF2B 0x03 .crcCompute ∧
  ∀ (h : U16) (d : Bytes) (s : State), exec (.crcCompute h d) s =
    .next { s with
      event := none, responses := s.responses ++ [[0x00, hi8 (compute d h), lo8 (compute d h)]] }

/-- The bit order of R52 on the algorithm of R100: the byte's bits enter the CRC one at a time, bit 7 first; each is
compared with the top bit of the accumulator, which is shifted left and has the polynomial XORed in when they differ.
For accumulator FFFF and byte FF the corner case of R103 says otherwise (log entry 12). -/
def Obligations.CrcStepIsBitSerial : Prop :=
  ∀ (crc : U16) (b : Byte), crcStep crc b =
    [7, 6, 5, 4, 3, 2, 1, 0].foldl
      (fun (c : U16) (i : Nat) => if c.msb != b.getLsbD i then (c <<< 1) ^^^ 0x1021 else c <<< 1) crc

/-- The laws of `compute` that the spec derives as R106, (a) to (d). The corner case of R103 on FFFF and FF would
break (d); the model follows R100 there (log entry 12). -/
def Obligations.LawsOfCompute : Prop :=
  (∀ (s t : Bytes) (i : U16), compute (s ++ t) i = compute t (compute s i)) ∧
  (∀ i : U16, compute [] i = i) ∧
  (∀ (s : Bytes) (i : U16), compute (s ++ [hi8 (compute s i), lo8 (compute s i)]) i = 0x0000) ∧
  (∀ b : Byte, Function.Bijective fun c : U16 => crcStep c b)

/-! ### The Frame Codec -/

/-- R120: FRM_ENCODE, on legal and on illegal payload lengths. -/
def Obligations.FrmEncodeAnswersFrame : Prop :=
  FormatFB 0x10 .frmEncode ∧
  (∀ (d : Bytes) (s : State), 1 ≤ d.length → d.length ≤ s.cfg.maxPayload.toNat →
    exec (.frmEncode d) s = .next { s with
      event := none
      responses := s.responses ++
        [[0x00, hi8 (BitVec.ofNat 16 (d.length + 4)), lo8 (BitVec.ofNat 16 (d.length + 4)),
          0xAA, BitVec.ofNat 8 d.length] ++ d ++
          [hi8 (compute (BitVec.ofNat 8 d.length :: d) 0xFFFF), lo8 (compute (BitVec.ofNat 8 d.length :: d) 0xFFFF)]] }) ∧
  (∀ (d : Bytes) (s : State), d.length = 0 ∨ s.cfg.maxPayload.toNat < d.length →
    exec (.frmEncode d) s = .next { s with event := none, responses := s.responses ++ [[0x01]] })

/-! ### The Stream Parser -/

/-- R140 and R141: the transitions of SYNC. -/
def Obligations.HuntingTransitions : Prop :=
  (∀ (b : Byte) (s : State), s.parser.state = .sync → b ≠ 0xAA →
    exec (.prsSyncDrop b) s = .next { s with
      counters := { s.counters with syncDrop := s.counters.syncDrop + 1 }, event := none }) ∧
  (∀ s : State, s.parser.state = .sync →
    exec .prsSyncHit s = .next { s with
      parser := { s.parser with crc := 0xFFFF, acc := [], state := .len }, event := none })

/-- R142, with R31, and R143: the transitions of LEN. -/
def Obligations.LengthTransitions : Prop :=
  (∀ (b : Byte) (s : State), s.parser.state = .len → (b = 0 ∨ s.cfg.maxPayload.toNat < b.toNat) →
    exec (.prsLenBad b) s = .next { s with
      parser := { state := .sync, crc := 0xFFFF, len := 0, acc := [], crcHi := 0x00 }
      counters := { s.counters with lenErr := s.counters.lenErr + 1 }, event := none }) ∧
  (∀ (b : Byte) (s : State), s.parser.state = .len → 1 ≤ b.toNat → b.toNat ≤ s.cfg.maxPayload.toNat →
    exec (.prsLenOk b) s = .next { s with
      parser := { s.parser with len := b, crc := crcStep s.parser.crc b, state := .data }, event := none })

/-- R144 and R145: the transitions of DATA. -/
def Obligations.DataTransitions : Prop :=
  (∀ (b : Byte) (s : State), s.parser.state = .data → s.parser.acc.length + 1 < s.parser.len.toNat →
    exec (.prsData b) s = .next { s with
      parser := { s.parser with acc := s.parser.acc ++ [b], crc := crcStep s.parser.crc b }, event := none }) ∧
  (∀ (b : Byte) (s : State), s.parser.state = .data → s.parser.acc.length + 1 = s.parser.len.toNat →
    exec (.prsDataLast b) s = .next { s with
      parser := { s.parser with acc := s.parser.acc ++ [b], crc := crcStep s.parser.crc b, state := .crcHi }
      event := none })

/-- R146, R147 and R148, with R31: the transitions of CRC_HI and CRC_LO. -/
def Obligations.CrcTransitions : Prop :=
  (∀ (b : Byte) (s : State), s.parser.state = .crcHi →
    exec (.prsCrcHi b) s = .next { s with parser := { s.parser with crcHi := b, state := .crcLo }, event := none }) ∧
  (∀ (b : Byte) (s : State), s.parser.state = .crcLo → be16 s.parser.crcHi b = s.parser.crc →
    exec (.prsCrcMatch b) s = .next { s with
      parser := { state := .sync, crc := 0xFFFF, len := 0, acc := [], crcHi := 0x00 }
      counters := { s.counters with framesOk := s.counters.framesOk + 1 }
      event := some { data := s.parser.acc, raw := [0xAA, s.parser.len] ++ s.parser.acc ++ [s.parser.crcHi, b] } }) ∧
  (∀ (b : Byte) (s : State), s.parser.state = .crcLo → be16 s.parser.crcHi b ≠ s.parser.crc →
    exec (.prsCrcMismatch b) s = .next { s with
      parser := { state := .sync, crc := 0xFFFF, len := 0, acc := [], crcHi := 0x00 }
      counters := { s.counters with crcErr := s.counters.crcErr + 1 }, event := none })

/-- A transition run where its row of R93 does not hold is a stuck state (the model's choice, log entry 7). -/
def Obligations.TransitionsStopOutsideTheirRow : Prop :=
  ∀ (t : Transition) (b : Byte) (s : State), (t = .syncHit → b = 0xAA) → ¬ t.Row s b →
    exec (t.instr b) s = .fault .noTransition

/-- R93: for every byte exactly one transition applies, it is the one the byte decode gives, and it runs. -/
def Obligations.ExactlyOneTransitionApplies : Prop :=
  ∀ (s : State) (b : Byte), s.parser.Inv s.cfg.maxPayload →
    ∃ t : Transition, t.Row s b ∧ (∀ u : Transition, u.Row s b → u = t) ∧ decodeByte s.keyContext b = some t ∧
      ∃ after, exec (t.instr b) s = .next after

/-- R150 with R87: PRS_FEED runs the transition whose row holds and answers its event. -/
def Obligations.PrsFeedRunsTheTransition : Prop :=
  FormatF1 0x20 .prsFeed ∧
  ∀ (t : Transition) (b : Byte) (s : State), t.Row s b →
    ∃ u, exec (t.instr b) s = .next u ∧
      exec (.prsFeed b) s = .next { u with
        event := none
        responses := s.responses ++
          [match u.event with
            | none => [0x00, 0x00]
            | some e => [0x00, 0x01] ++ blobBytes e.data ++ blobBytes e.raw] }

/-- R151: PRS_RESET. -/
def Obligations.PrsResetReturnsToHunting : Prop :=
  FormatF0 0x21 .prsReset ∧
  ∀ s : State, exec .prsReset s = .next { s with
    parser := { state := .sync, crc := 0xFFFF, len := 0, acc := [], crcHi := 0x00 }
    event := none, responses := s.responses ++ [[0x00]] }

/-- The round trip the spec derives as R121: the bytes of encode(p), fed from SYNC, give exactly one frame event, in
the response to the last byte, and leave the parser in SYNC. -/
def Obligations.EncodedFramesAreDecoded : Prop :=
  ∀ (s : State) (p : Bytes), s.parser.state = .sync → 1 ≤ p.length → p.length ≤ s.cfg.maxPayload.toNat →
    execAll ((encodeFrame p).map Instr.prsFeed) s = .next { s with
      parser := Parser.reset
      counters := { s.counters with framesOk := s.counters.framesOk + 1 }
      event := none
      responses := s.responses ++ List.replicate (p.length + 3) [0x00, 0x00] ++
        [[0x00, 0x01] ++ blobBytes p ++ blobBytes (encodeFrame p)] }

/-- What the spec derives as R154 and R63: from SYNC, any number of frames, each behind noise without 0xAA, are all
emitted, in order, each on its last byte, and every noise byte is counted. -/
def Obligations.NoisyStreamIsDecoded : Prop :=
  ∀ (s : State) (chunks : List (Bytes × Bytes)), s.parser.state = .sync →
    (∀ c ∈ chunks, (0xAA : Byte) ∉ c.1 ∧ 1 ≤ c.2.length ∧ c.2.length ≤ s.cfg.maxPayload.toNat) →
    ∃ t, execAll ((chunks.flatMap fun c => c.1 ++ encodeFrame c.2).map Instr.prsFeed) s = .next t ∧
      t.parser.state = .sync ∧
      t.responses = s.responses ++ chunks.flatMap (fun c =>
        List.replicate (c.1.length + c.2.length + 3) [0x00, 0x00] ++ [eventPacket c.2]) ∧
      t.counters = { s.counters with
        framesOk := s.counters.framesOk + BitVec.ofNat 32 chunks.length
        syncDrop := s.counters.syncDrop + BitVec.ofNat 32 (chunks.map fun c => c.1.length).sum }

/-- What the spec derives as R157: a frame with one bit of its CRC bytes flipped, fed from SYNC, gives no event, and
the parser is in SYNC after its last byte. -/
def Obligations.FlippedCrcBitsAreRejected : Prop :=
  ∀ (s : State) (p : Bytes) (k : Nat), s.parser.state = .sync → 1 ≤ p.length →
    p.length ≤ s.cfg.maxPayload.toNat → k < 16 →
    ∃ t, execAll (([0xAA, BitVec.ofNat 8 p.length] ++ p ++
          u16Bytes (compute (BitVec.ofNat 8 p.length :: p) 0xFFFF ^^^ (1#16 <<< k))).map Instr.prsFeed) s = .next t ∧
      t.responses = s.responses ++ List.replicate (p.length + 4) [0x00, 0x00] ∧
      t.parser.state = .sync ∧
      t.counters = { s.counters with crcErr := s.counters.crcErr + 1 }

/-- What the spec derives as R156: a second 0xAA is a length byte. Below MAX_PAYLOAD = 170 it is rejected, and a good
frame body after it is lost; from 170 on it is accepted as L = 170. -/
def Obligations.SecondSyncByteIsALength : Prop :=
  ∀ s : State, s.parser.state = .sync →
    (s.cfg.maxPayload.toNat < 170 →
      ∃ t, execAll (([0xAA, 0xAA, 0x01, 0x61, 0x52, 0xB9] : Bytes).map Instr.prsFeed) s = .next t ∧
        t.responses = s.responses ++ List.replicate 6 [0x00, 0x00] ∧
        t.counters = { s.counters with
          lenErr := s.counters.lenErr + 1, syncDrop := s.counters.syncDrop + 4 }) ∧
    (170 ≤ s.cfg.maxPayload.toNat →
      ∃ t, execAll (([0xAA, 0xAA] : Bytes).map Instr.prsFeed) s = .next t ∧
        t.parser.state = .data ∧ t.parser.len = 170)

/-! ### The Segment Codec and the transmit path -/

/-- R170, with the closed form the spec derives as R174: SEG_SPLIT answers the pieces in order. -/
def Obligations.SegSplitAnswersPieces : Prop :=
  FormatF1B 0x30 .segSplit ∧
  ∀ (tid : Byte) (d : Bytes) (s : State), s.cfg.Legal →
    exec (.segSplit tid d) s = .next { s with
      event := none
      responses := s.responses ++
        [0x00 :: (u16Bytes (BitVec.ofNat 16 (expectedPieces s.cfg tid d).length) ++
          (expectedPieces s.cfg tid d).flatMap blobBytes)] }

/-- R171, with the closed form the spec derives as R174: SEG_SPLIT_RAW answers the header-less slices in order. -/
def Obligations.SegSplitRawAnswersSlices : Prop :=
  FormatFB 0x31 .segSplitRaw ∧
  ∀ (d : Bytes) (s : State), s.cfg.Legal →
    exec (.segSplitRaw d) s = .next { s with
      event := none
      responses := s.responses ++
        [0x00 :: (u16Bytes (BitVec.ofNat 16 (expectedRawPieces s.cfg d).length) ++
          (expectedRawPieces s.cfg d).flatMap blobBytes)] }

/-- R172, on the closed form of R174: TX_SEGMENTED answers the frames of the pieces, in order, and every piece fits a
frame. -/
def Obligations.TxSegmentedAnswersFrames : Prop :=
  FormatF1B 0x32 .txSegmented ∧
  ∀ (tid : Byte) (d : Bytes) (s : State), s.cfg.Legal →
    exec (.txSegmented tid d) s = .next { s with
      event := none
      responses := s.responses ++
        [0x00 :: (u16Bytes (BitVec.ofNat 16 (expectedPieces s.cfg tid d).length) ++
          (expectedPieces s.cfg tid d).flatMap fun p => blobBytes (encodeFrame p))] } ∧
    ∀ p ∈ expectedPieces s.cfg tid d, 8 ≤ p.length ∧ p.length ≤ s.cfg.maxPayload.toNat

/-- R173, on the closed form of R174: TX_RAW answers the frames of the slices, in order, and every slice fits a frame. -/
def Obligations.TxRawAnswersFrames : Prop :=
  FormatFB 0x33 .txRaw ∧
  ∀ (d : Bytes) (s : State), s.cfg.Legal →
    exec (.txRaw d) s = .next { s with
      event := none
      responses := s.responses ++
        [0x00 :: (u16Bytes (BitVec.ofNat 16 (expectedRawPieces s.cfg d).length) ++
          (expectedRawPieces s.cfg d).flatMap fun p => blobBytes (encodeFrame p))] } ∧
    ∀ p ∈ expectedRawPieces s.cfg d, 1 ≤ p.length ∧ p.length ≤ s.cfg.maxPayload.toNat

/-- The coverage law the spec derives as R174: the pieces' chunks, in order, are the data, and so are the slices of
split_raw; there are ceil(n / C) of them. -/
def Obligations.SplitCoversTheData : Prop :=
  ∀ (c : Config) (tid : Byte) (d : Bytes), c.Legal → 1 ≤ d.length →
    ((split c tid d).map fun p => p.drop 7).flatten = d ∧ (splitRaw c d).flatten = d ∧
    (split c tid d).length = pieceCount (c.maxPayload.toNat - 7) d.length ∧
    (splitRaw c d).length = pieceCount c.maxPayload.toNat d.length ∧
    split c tid d = expectedPieces c tid d ∧ splitRaw c d = expectedRawPieces c d

/-! ### The Segment Reassembler -/

/-- R191 with R75, and R205, which the spec derives: data that is not a consistent data chunk is NotSegmented and
changes no slot. -/
def Obligations.InconsistentSegmentsAreRefused : Prop :=
  FormatFB 0x40 .rsmAccept ∧
  (∀ (d : Bytes) (s : State), d.length < 7 →
    exec (.rsmAccept d) s = .next { s with event := none, responses := s.responses ++ [[0x00, 0x00]] }) ∧
  (∀ (typ tid t1 t0 o1 o0 k : Byte) (chunk : Bytes) (s : State),
    typ ≠ 0x01 ∨ k.toNat ≠ chunk.length ∨
      (o1.toNat * 256 + o0.toNat) + k.toNat > t1.toNat * 256 + t0.toNat →
    exec (.rsmAccept (typ :: tid :: t1 :: t0 :: o1 :: o0 :: k :: chunk)) s =
      .next { s with event := none, responses := s.responses ++ [[0x00, 0x00]] })

/-- R192: a total that differs from the active transfer's. Under REJECT the segment is NotSegmented and changes
nothing; under RESTART the outcome is that of the segment on the slot's reset value. -/
def Obligations.TotalMismatchFollowsThePolicy : Prop :=
  ∀ (tid t1 t0 o1 o0 k : Byte) (chunk : Bytes) (s : State),
    k.toNat = chunk.length → (o1.toNat * 256 + o0.toNat) + k.toNat ≤ t1.toNat * 256 + t0.toNat →
    (s.slot tid).active = true → (s.slot tid).total ≠ be16 t1 t0 →
    (s.cfg.policy = .reject →
      exec (.rsmAccept (0x01 :: tid :: t1 :: t0 :: o1 :: o0 :: k :: chunk)) s =
        .next { s with event := none, responses := s.responses ++ [[0x00, 0x00]] }) ∧
    (s.cfg.policy = .restart →
      exec (.rsmAccept (0x01 :: tid :: t1 :: t0 :: o1 :: o0 :: k :: chunk)) s =
        exec (.rsmAccept (0x01 :: tid :: t1 :: t0 :: o1 :: o0 :: k :: chunk)) (s.setSlot tid Slot.reset))

/-- R193 to R196: a consistent segment, for a slot that is inactive or has an equal total. Its bytes go to the cells
from `offset` on and every other cell keeps what it held (HOLE in a new buffer). While the transfer is not complete
the slot holds the result and `Progress` reports R36's count; when it is complete the slot is reset and `Complete`
carries each cell's byte, and for a HOLE a free draw (R196). The index `readouts` that names the draw is the model's own
field (log entry 5). -/
def Obligations.SegmentsAreWrittenAndCounted : Prop :=
  ∀ (tid t1 t0 o1 o0 k : Byte) (chunk : Bytes) (s : State) (off total count : Nat) (cell : Nat → Option Byte),
    off = o1.toNat * 256 + o0.toNat → total = t1.toNat * 256 + t0.toNat →
    k.toNat = chunk.length → off + k.toNat ≤ total →
    (s.slot tid).Inv s.cfg.mode → ((s.slot tid).active = true → (s.slot tid).total = be16 t1 t0) →
    (count = (match s.cfg.mode with
      | .counter => (s.slot tid).received.toNat + k.toNat
      | .coverage => cellsWritten total cell)) →
    (∀ a, cell a = if off ≤ a ∧ a < off + chunk.length then chunk[a - off]?
      else if (s.slot tid).active then Memory.read (s.slot tid).buf a else none) →
    (count < total →
      ∃ t, exec (.rsmAccept (0x01 :: tid :: t1 :: t0 :: o1 :: o0 :: k :: chunk)) s = .next t ∧
        s.Answered t ([0x00, 0x01, tid] ++ u32Bytes (BitVec.ofNat 32 count)) ∧
        t.cfg = s.cfg ∧ t.crcAcc = s.crcAcc ∧ t.parser = s.parser ∧ t.counters = s.counters ∧
        t.readouts = s.readouts ∧ (∀ u, u ≠ tid → t.slot u = s.slot u) ∧
        (t.slot tid).active = true ∧ (t.slot tid).total = be16 t1 t0 ∧
        (t.slot tid).received.toNat = (match s.cfg.mode with
          | .counter => count
          | .coverage => 0) ∧
        ∀ a, Memory.read (t.slot tid).buf a = cell a) ∧
    (total ≤ count →
      ∃ t payload, exec (.rsmAccept (0x01 :: tid :: t1 :: t0 :: o1 :: o0 :: k :: chunk)) s = .next t ∧
        s.Answered t ([0x00, 0x02, tid] ++ blobBytes payload) ∧
        t.cfg = s.cfg ∧ t.crcAcc = s.crcAcc ∧ t.parser = s.parser ∧ t.counters = s.counters ∧
        (∀ u, u ≠ tid → t.slot u = s.slot u) ∧ t.slot tid = Slot.reset ∧
        payload.length = total ∧
        ∀ a, a < total → payload[a]? = some ((cell a).getD (Config.hole s.readouts a)))

/-- R197, and what the spec derives from it as R206: RSM_ACCEPT writes no parser field, no counter and no CRC_ACC, and
touches only the slot of the id in its segment's header. -/
def Obligations.AcceptTouchesOnlyItsSlot : Prop :=
  ∀ (d : Bytes) (s : State), ∃ t r, exec (.rsmAccept d) s = .next t ∧ s.Answered t r ∧
    t.cfg = s.cfg ∧ t.crcAcc = s.crcAcc ∧ t.parser = s.parser ∧ t.counters = s.counters ∧
    ∀ u, carriesId u d = false → t.slot u = s.slot u

/-- What the spec derives as R64 and R206: what a segment does, and what is answered, does not depend on the slots of
other ids. That the two responses agree on HOLE cells too is the model's choice: a free draw is a function of the index
`readouts`, which the two states share (log entry 5). -/
def Obligations.TransfersAreIsolated : Prop :=
  ∀ (tid : Byte) (d : Bytes) (s t s' t' : State), carriesId tid d = true →
    s.cfg = s'.cfg → s.slot tid = s'.slot tid → s.readouts = s'.readouts →
    exec (.rsmAccept d) s = .next t → exec (.rsmAccept d) s' = .next t' →
    t.slot tid = t'.slot tid ∧ t.responses.drop s.responses.length = t'.responses.drop s'.responses.length

/-- What the spec derives as R57: accepting a segment again while its transfer is still active leaves the buffer as it
was. -/
def Obligations.DuplicatesRewriteTheSameBytes : Prop :=
  ∀ (tid : Byte) (d : Bytes) (s t u : State), carriesId tid d = true → (s.slot tid).Inv s.cfg.mode →
    exec (.rsmAccept d) s = .next t → (t.slot tid).active = true →
    exec (.rsmAccept d) t = .next u → (u.slot tid).active = true →
    (u.slot tid).buf = (t.slot tid).buf ∧ (u.slot tid).total = (t.slot tid).total

/-- From R201, which the spec derives: under COVERAGE a duplicate changes no slot and never completes a transfer. -/
def Obligations.CoverageIgnoresDuplicates : Prop :=
  ∀ (tid : Byte) (d : Bytes) (s t : State), carriesId tid d = true → (s.slot tid).Inv s.cfg.mode →
    s.cfg.mode = .coverage → exec (.rsmAccept d) s = .next t → (t.slot tid).active = true →
    ∃ u, exec (.rsmAccept d) t = .next u ∧ u.slots = t.slots

/-- What the spec derives as R202 and R204: a segment of total 0 completes an inactive slot at once with an empty
payload; a segment without bytes opens an inactive slot, or leaves the active one as it is, and reports the unchanged
count. -/
def Obligations.EmptySegments : Prop :=
  (∀ (tid : Byte) (s : State), s.slot tid = Slot.reset →
    ∃ t, exec (.rsmAccept [0x01, tid, 0x00, 0x00, 0x00, 0x00, 0x00]) s = .next t ∧
      s.Answered t [0x00, 0x02, tid, 0x00, 0x00] ∧ s.SameBlock t) ∧
  (∀ (tid t1 t0 o1 o0 : Byte) (s : State), 1 ≤ (be16 t1 t0).toNat → (be16 o1 o0).toNat ≤ (be16 t1 t0).toNat →
    s.slot tid = Slot.reset →
    ∃ t, exec (.rsmAccept [0x01, tid, t1, t0, o1, o0, 0x00]) s = .next t ∧
      s.Answered t [0x00, 0x01, tid, 0x00, 0x00, 0x00, 0x00] ∧
      t.slot tid = { active := true, total := be16 t1 t0, buf := [], received := 0 }) ∧
  (∀ (tid t1 t0 o1 o0 : Byte) (s : State), (be16 o1 o0).toNat ≤ (be16 t1 t0).toNat →
    (s.slot tid).Inv s.cfg.mode → (s.slot tid).active = true → (s.slot tid).total = be16 t1 t0 →
    ∃ t, exec (.rsmAccept [0x01, tid, t1, t0, o1, o0, 0x00]) s = .next t ∧
      s.Answered t ([0x00, 0x01, tid] ++ u32Bytes ((s.slot tid).soFar s.cfg.mode)) ∧ s.SameBlock t)

/-- The round trip the spec derives as R176: the pieces of split(d, tid), accepted in any order without duplicates,
with frame data of other ids in between, give Progress for every piece but the last and Complete with d for the last,
and leave the slot inactive. -/
def Obligations.SplitTransfersReassemble : Prop :=
  ∀ (s : State) (tid : Byte) (d : Bytes) (l : List Bytes), s.cfg.Legal → s.slot tid = Slot.reset →
    1 ≤ d.length → d.length ≤ 65535 → (l.filter (carriesId tid)).Perm (split s.cfg tid d) →
    ∃ t rs ps, execAll (l.map Instr.rsmAccept) s = .next t ∧ t.responses = s.responses ++ rs ∧
      rs.length = l.length ∧
      ((l.zip rs).filter fun x => carriesId tid x.1).map (fun x => x.2) = ps ++ [[0x00, 0x02, tid] ++ blobBytes d] ∧
      (∀ r ∈ ps, ∃ n : U32, r = [0x00, 0x01, tid] ++ u32Bytes n) ∧
      t.slot tid = Slot.reset

/-- R198 with R36: RSM_STATUS. (`readouts`, which it keeps, is the model's own field: log entry 5.) -/
def Obligations.RsmStatusReportsTheSlot : Prop :=
  FormatF1 0x41 .rsmStatus ∧
  ∀ (tid : Byte) (s : State), (s.slot tid).Inv s.cfg.mode →
    ∃ t, exec (.rsmStatus tid) s = .next t ∧ s.SameBlock t ∧ t.readouts = s.readouts ∧
      s.Answered t
        (if (s.slot tid).active then
          [0x00, 0x01] ++ u16Bytes (s.slot tid).total ++
            (match s.cfg.mode with
              | .counter => u32Bytes (BitVec.ofNat 32 (s.slot tid).received.toNat)
              | .coverage => u32Bytes (BitVec.ofNat 32
                  (cellsWritten (s.slot tid).total.toNat (Memory.read (s.slot tid).buf))))
        else [0x00, 0x00, 0x00, 0x00, 0x00, 0x00, 0x00, 0x00])

/-- R199: RSM_CLEAR. (`readouts`, which it keeps, is the model's own field: log entry 5.) -/
def Obligations.RsmClearDiscardsEveryTransfer : Prop :=
  FormatF0 0x42 .rsmClear ∧
  ∀ s : State, ∃ t, exec .rsmClear s = .next t ∧ s.Answered t [0x00] ∧ t.cfg = s.cfg ∧ t.crcAcc = s.crcAcc ∧
    t.parser = s.parser ∧ t.counters = s.counters ∧ t.readouts = s.readouts ∧ ∀ u, t.slot u = Slot.reset

/-- R200: RX_BYTE is PRS_FEED where no frame completes; where one does, the reassembler accepts the event's data, and
the response carries the event and then the result. -/
def Obligations.RxByteRunsThePipeline : Prop :=
  FormatF1 0x22 .rxByte ∧
  (∀ (t : Transition) (b : Byte) (s : State), t.Row s b → t ≠ .crcMatch →
    ∃ u, exec (t.instr b) s = .next u ∧
      exec (.rxByte b) s = .next { u with responses := s.responses ++ [[0x00, 0x00]] }) ∧
  (∀ (b : Byte) (s : State), s.parser.state = .crcLo → be16 s.parser.crcHi b = s.parser.crc →
    ∃ u v res, exec (.prsCrcMatch b) s = .next u ∧ exec (.rsmAccept s.parser.acc) u = .next v ∧
      v.responses = s.responses ++ [0x00 :: res] ∧
      exec (.rxByte b) s = .next { v with
        responses := s.responses ++
          [[0x00, 0x01] ++ blobBytes s.parser.acc ++
            blobBytes ([0xAA, s.parser.len] ++ s.parser.acc ++ [s.parser.crcHi, b]) ++ res] })

/-! ### System commands -/

/-- R220 with R39: REG_READ over the whole register map, and INVALID_ARG outside it. -/
def Obligations.RegReadFollowsTheMap : Prop :=
  FormatF1 0x50 .regRead ∧
  (∀ (s : State) (a : Byte) (v : U32),
    (a, v) ∈ ([(0x00, s.crcAcc.setWidth 32), (0x01, s.parser.state.code.setWidth 32),
      (0x02, s.parser.len.setWidth 32), (0x03, (BitVec.ofNat 8 s.parser.acc.length).setWidth 32),
      (0x04, s.parser.crc.setWidth 32), (0x05, s.parser.crcHi.setWidth 32),
      (0x06, BitVec.ofNat 32 (s.slots.toList.countP fun x => x.active)),
      (0x07, s.cfg.maxPayload.setWidth 32),
      (0x08, BitVec.ofNat 32 ((if s.cfg.policy = .restart then 1 else 0) + (if s.cfg.mode = .coverage then 2 else 0))),
      (0x10, s.counters.framesOk), (0x11, s.counters.lenErr), (0x12, s.counters.crcErr),
      (0x13, s.counters.syncDrop)] : List (Byte × U32)) →
    exec (.regRead a) s = .next { s with event := none, responses := s.responses ++ [0x00 :: u32Bytes v] }) ∧
  (∀ (s : State) (a : Byte), a ∉ mappedRegisters →
    exec (.regRead a) s = .next { s with event := none, responses := s.responses ++ [[0x01]] })

/-- From R222, R40 and R41: CORE_RESET. That it keeps the index of the free draws (`readouts`) and the responses already
given is the model's choice (log entries 5 and 3). -/
def Obligations.CoreResetRestoresTheResetState : Prop :=
  FormatF0 0x60 .coreReset ∧
  ∀ s : State, ∃ t, exec .coreReset s = .next t ∧ s.Answered t [0x00] ∧ t.cfg = s.cfg ∧ t.crcAcc = 0xFFFF ∧
    t.parser = { state := .sync, crc := 0xFFFF, len := 0, acc := [], crcHi := 0x00 } ∧
    (∀ u, t.slot u = { active := false, total := 0, buf := [], received := 0 }) ∧
    t.counters = { framesOk := 0, lenErr := 0, crcErr := 0, syncDrop := 0 } ∧
    t.readouts = s.readouts

/-! ### Rules of the whole machine -/

/-- R58, and what the spec derives as R62: the transmit commands, CRC_COMPUTE and the reads write no state. (`readouts`,
which they keep, is the model's own field: log entry 5.) -/
def Obligations.PureCommandsWriteNothing : Prop :=
  ∀ (s : State) (i : Instr),
    (∃ h d, i = .crcCompute h d) ∨ (∃ d, i = .frmEncode d) ∨ (∃ tid d, i = .segSplit tid d) ∨
      (∃ d, i = .segSplitRaw d) ∨ (∃ tid d, i = .txSegmented tid d) ∨ (∃ d, i = .txRaw d) ∨
      (∃ tid, i = .rsmStatus tid) ∨ (∃ a, i = .regRead a) →
    ∃ t r, exec i s = .next t ∧ s.SameBlock t ∧ t.readouts = s.readouts ∧ s.Answered t r

/-- What the spec derives as R62: the transmit commands and CRC_COMPUTE read no state: their response depends on the
configuration alone. -/
def Obligations.TransmitCommandsReadNothing : Prop :=
  ∀ (s s' t t' : State) (i : Instr),
    (∃ h d, i = .crcCompute h d) ∨ (∃ d, i = .frmEncode d) ∨ (∃ tid d, i = .segSplit tid d) ∨
      (∃ d, i = .segSplitRaw d) ∨ (∃ tid d, i = .txSegmented tid d) ∨ (∃ d, i = .txRaw d) →
    s.cfg = s'.cfg → exec i s = .next t → exec i s' = .next t' →
    t.responses.drop s.responses.length = t'.responses.drop s'.responses.length

/-- What the spec derives in R62's last sentence: no receive command reads CRC_ACC: changing it changes nothing else
that a receive command does or answers. -/
def Obligations.ReceivePathIgnoresCrcAcc : Prop :=
  ∀ (s t : State) (acc : U16) (i : Instr),
    (∃ b, i = .prsFeed b) ∨ (∃ b, i = .rxByte b) ∨ (∃ d, i = .rsmAccept d) ∨ i = .prsReset ∨ i = .rsmClear →
    exec i s = .next t → exec i { s with crcAcc := acc } = .next { t with crcAcc := acc }

/-- From R21 to R23, R34 and R38: which instructions write which part of the state. -/
def Obligations.WritersOfEachRegister : Prop :=
  ∀ (i : Instr) (s t : State), exec i s = .next t →
    (t.crcAcc ≠ s.crcAcc → (∃ h, i = .crcInit h) ∨ (∃ b, i = .crcStep b) ∨ i = .coreReset) ∧
    (t.parser ≠ s.parser → (∃ b, i = .prsFeed b) ∨ (∃ b, i = .rxByte b) ∨ i = .prsReset ∨ i = .coreReset ∨
      ∃ (u : Transition) (b : Byte), i = u.instr b) ∧
    (t.slots ≠ s.slots → (∃ d, i = .rsmAccept d) ∨ (∃ b, i = .rxByte b) ∨ i = .rsmClear ∨ i = .coreReset) ∧
    (t.counters ≠ s.counters → (∃ b, i = .prsFeed b) ∨ (∃ b, i = .rxByte b) ∨ i = .coreReset ∨
      ∃ (u : Transition) (b : Byte), i = u.instr b)

/-- R41: no step changes the configuration (which the model holds in the state, log entry 1). -/
def Obligations.ConfigurationIsFixed : Prop := ∀ s t : State, step s = .next t → t.cfg = s.cfg

end
end

