-- ==== Sys2Proof/Laws/Memory.lean ====
section
/-! SUPPORT. The laws of a reassembly buffer: what a cell reads after a write, and that every operation keeps the
canonical form. -/

namespace Sys2Proof.Machine

/-! ### Reading -/

@[simp] theorem Memory.read_nil (a : Nat) : Memory.read [] a = none := rfl

theorem Memory.read_cons (c : Host.Cell) (m : Memory) (a : Nat) :
    Memory.read (c :: m) a = if c.1 = a then some c.2 else Memory.read m a := rfl

/-- A cell reads as a byte when it is listed. -/
theorem Memory.read_isSome (m : Memory) (a : Nat) : (Memory.read m a).isSome = true ↔ a ∈ m.map Prod.fst := by
  induction m with
  | nil => simp
  | cons c m ih =>
    rw [Memory.read_cons]
    by_cases h : c.1 = a
    · simp [h]
    · simp [h, ih, Ne.symm h]

/-- In canonical form a listed cell reads as its byte. -/
theorem Memory.read_of_mem {m : Memory} (hw : Memory.wf m) {c : Host.Cell} (hc : c ∈ m) :
    Memory.read m c.1 = some c.2 := by
  induction m with
  | nil => cases hc
  | cons d m ih =>
    rw [Memory.wf, List.pairwise_cons] at hw
    rw [Memory.read_cons]
    rcases List.mem_cons.mp hc with rfl | hc
    · simp
    · rw [if_neg (Nat.ne_of_lt (hw.1 c hc))]
      exact ih hw.2 hc

/-! ### Writing -/

theorem Memory.read_write (m : Memory) (a : Nat) (b : Byte) (x : Nat) :
    Memory.read (Memory.write m a b) x = if a = x then some b else Memory.read m x := by
  induction m with
  | nil => simp [Memory.write, Memory.read_cons]
  | cons c m ih =>
    unfold Memory.write
    split
    · simp [Memory.read_cons]
    · split
      · next h1 h => simp only [Memory.read_cons, h]; split <;> rfl
      · next h1 h =>
        simp only [Memory.read_cons, ih]
        by_cases hc : c.1 = x
        · simp [hc, show a ≠ x by omega]
        · simp [hc]

theorem Memory.mem_write {m : Memory} {a : Nat} {b : Byte} {c : Host.Cell} (h : c ∈ Memory.write m a b) :
    c = (a, b) ∨ c ∈ m := by
  induction m with
  | nil => simpa [Memory.write] using h
  | cons d m ih =>
    unfold Memory.write at h
    split at h
    · simpa using h
    · split at h
      · rcases List.mem_cons.mp h with h | h
        · exact .inl h
        · exact .inr (List.mem_cons_of_mem _ h)
      · rcases List.mem_cons.mp h with h | h
        · exact .inr (h ▸ List.mem_cons_self)
        · exact (ih h).imp_right (List.mem_cons_of_mem _)

/-- A write keeps the canonical form. -/
theorem Memory.write_wf {m : Memory} (a : Nat) (b : Byte) (h : Memory.wf m) : Memory.wf (Memory.write m a b) := by
  induction m with
  | nil => simp [Memory.write, Memory.wf]
  | cons c m ih =>
    rw [Memory.wf, List.pairwise_cons] at h
    unfold Memory.write
    split
    · next hlt =>
      refine List.pairwise_cons.mpr ⟨fun d hd => ?_, List.pairwise_cons.mpr h⟩
      rcases List.mem_cons.mp hd with rfl | hd
      · exact hlt
      · exact Nat.lt_trans hlt (h.1 d hd)
    · next hge =>
      split
      · next he => exact List.pairwise_cons.mpr ⟨fun d hd => by have := h.1 d hd; simp only; omega, h.2⟩
      · next hne =>
        refine List.pairwise_cons.mpr ⟨fun d hd => ?_, ih h.2⟩
        rcases Memory.mem_write hd with rfl | hd
        · simp only; omega
        · exact h.1 d hd

theorem Memory.read_writeBytes (bytes : Bytes) (m : Memory) (a x : Nat) :
    Memory.read (Memory.writeBytes m a bytes) x =
      if a ≤ x ∧ x < a + bytes.length then bytes[x - a]? else Memory.read m x := by
  induction bytes generalizing m a with
  | nil => rw [if_neg (by simp)]; rfl
  | cons b rest ih =>
    rw [Memory.writeBytes, ih, Memory.read_write]
    by_cases hx : a = x
    · subst hx
      rw [if_neg (by omega), if_pos rfl, if_pos (by simp)]
      simp
    · by_cases hin : a + 1 ≤ x ∧ x < a + 1 + rest.length
      · have : x - a = (x - (a + 1)) + 1 := by omega
        rw [if_pos hin, if_pos (by simp only [List.length_cons]; omega), this, List.getElem?_cons_succ]
      · rw [if_neg hin, if_neg hx, if_neg (by simp only [List.length_cons]; omega)]

/-- Writing a run of bytes keeps the canonical form. -/
theorem Memory.writeBytes_wf {m : Memory} (a : Nat) (bytes : Bytes) (h : Memory.wf m) :
    Memory.wf (Memory.writeBytes m a bytes) := by
  induction bytes generalizing m a with
  | nil => exact h
  | cons b rest ih => exact ih (a + 1) (Memory.write_wf a b h)

theorem Memory.mem_writeBytes {bytes : Bytes} {m : Memory} {a : Nat} {c : Host.Cell}
    (h : c ∈ Memory.writeBytes m a bytes) : (a ≤ c.1 ∧ c.1 < a + bytes.length) ∨ c ∈ m := by
  induction bytes generalizing m a with
  | nil => exact .inr h
  | cons b rest ih =>
    rcases ih h with ⟨h1, h2⟩ | h
    · exact .inl ⟨by omega, by simp only [List.length_cons]; omega⟩
    · rcases Memory.mem_write h with rfl | h
      · exact .inl (by simp)
      · exact .inr h

/-! ### Equal buffers -/

/-- Two canonical buffers whose cells read the same are the same list. -/
theorem Memory.ext {m n : Memory} (hm : Memory.wf m) (hn : Memory.wf n)
    (h : ∀ a, Memory.read m a = Memory.read n a) : m = n := by
  have mem_iff : ∀ c : Host.Cell, c ∈ m ↔ c ∈ n := by
    intro c
    constructor
    · intro hc
      have h1 := Memory.read_of_mem hm hc
      rw [h] at h1
      have h2 : c.1 ∈ n.map Prod.fst := (Memory.read_isSome n c.1).mp (by rw [h1]; rfl)
      obtain ⟨d, hd, he⟩ := List.mem_map.mp h2
      have h3 := Memory.read_of_mem hn hd
      rw [he, h1] at h3
      have : c = d := Prod.ext he.symm (Option.some.inj h3)
      exact this ▸ hd
    · intro hc
      have h1 := Memory.read_of_mem hn hc
      rw [← h] at h1
      have h2 : c.1 ∈ m.map Prod.fst := (Memory.read_isSome m c.1).mp (by rw [h1]; rfl)
      obtain ⟨d, hd, he⟩ := List.mem_map.mp h2
      have h3 := Memory.read_of_mem hm hd
      rw [he, h1] at h3
      have : c = d := Prod.ext he.symm (Option.some.inj h3)
      exact this ▸ hd
  refine List.Perm.eq_of_pairwise (le := fun a b : Host.Cell => a.1 < b.1) ?_ hm hn ?_
  · intro a b _ _ h1 h2
    omega
  · exact (List.perm_ext_iff_of_nodup (hm.imp fun h e => by rw [e] at h; omega)
      (hn.imp fun h e => by rw [e] at h; omega)).mpr mem_iff

/-- Writing the same bytes again changes nothing (20_memory.md R57). -/
theorem Memory.writeBytes_idem {m : Memory} (a : Nat) (bytes : Bytes) (h : Memory.wf m) :
    Memory.writeBytes (Memory.writeBytes m a bytes) a bytes = Memory.writeBytes m a bytes := by
  refine Memory.ext (Memory.writeBytes_wf a bytes (Memory.writeBytes_wf a bytes h))
    (Memory.writeBytes_wf a bytes h) fun x => ?_
  simp only [Memory.read_writeBytes]
  split <;> rfl

/-! ### Counting the written cells -/

/-- The offsets below `total` that hold a byte are as many as the cells listed, when all of those lie below it. -/
theorem Memory.count_below {m : Memory} (hw : Memory.wf m) {total : Nat} (hb : ∀ c ∈ m, c.1 < total) :
    ((List.range total).filter fun i => (Memory.read m i).isSome).length = Memory.written m := by
  have hn : (m.map Prod.fst).Nodup := by
    rw [List.nodup_iff_pairwise_ne, List.pairwise_map]
    exact hw.imp fun h => Nat.ne_of_lt h
  have hp : ((List.range total).filter fun i => (Memory.read m i).isSome).Perm (m.map Prod.fst) := by
    refine (List.perm_ext_iff_of_nodup (List.nodup_range.filter _) hn).mpr fun x => ?_
    rw [List.mem_filter, Memory.read_isSome, List.mem_range]
    constructor
    · exact fun h => h.2
    · intro h
      obtain ⟨c, hc, he⟩ := List.mem_map.mp h
      exact ⟨he ▸ hb c hc, h⟩
  simpa [Memory.written] using hp.length_eq

theorem Memory.written_le {m : Memory} (hw : Memory.wf m) {total : Nat} (hb : ∀ c ∈ m, c.1 < total) :
    Memory.written m ≤ total := by
  rw [← Memory.count_below hw hb]
  exact (List.length_filter_le _ _).trans_eq List.length_range

/-- `noHole` by counting: a canonical buffer has no HOLE below `total` when `total` cells are written. -/
theorem Memory.noHole_iff {m : Memory} (hw : Memory.wf m) {total : Nat} (hb : ∀ c ∈ m, c.1 < total) :
    Memory.noHole m total = true ↔ total ≤ Memory.written m := by
  rw [← Memory.count_below hw hb, Memory.noHole, List.all_eq_true]
  constructor
  · intro h
    rw [List.filter_eq_self.mpr h, List.length_range]
  · intro h
    refine List.filter_eq_self.mp (List.filter_sublist.eq_of_length_le ?_)
    rw [List.length_range]
    exact h

/-! ### Readout -/

@[simp] theorem Memory.readout_length (m : Memory) (total n : Nat) : (Memory.readout m total n).length = total := by
  simp [Memory.readout]

theorem Memory.readout_getElem? (m : Memory) (total n i : Nat) (h : i < total) :
    (Memory.readout m total n)[i]? = some ((Memory.read m i).getD (Config.hole n i)) := by
  simp [Memory.readout, h]

end Sys2Proof.Machine
end

