-- ==== Sys2Proof/Laws/Crc.lean ====
section
/-! SUPPORT. Folding laws of `compute`, and the CRC commands' effect. -/

namespace Sys2Proof.Machine

@[simp] theorem compute_nil (i : U16) : compute [] i = i := rfl

@[simp] theorem compute_cons (b : Byte) (s : Bytes) (i : U16) : compute (b :: s) i = compute s (crcStep i b) := rfl

/-- One more byte at the end. -/
theorem compute_concat (s : Bytes) (b : Byte) (i : U16) : compute (s ++ [b]) i = crcStep (compute s i) b := by
  induction s generalizing i with
  | nil => rfl
  | cons c s ih => exact ih (crcStep i c)

end Sys2Proof.Machine
end

