-- ==== Sys2Proof/Laws/Decode.lean ====
section
/-! SUPPORT. The byte-order helpers and the two decoders: what each does, and how they undo the encoder's fields. -/

namespace Sys2Proof

/-! ### Byte order -/

theorem be16_toNat (hi lo : Byte) : (be16 hi lo).toNat = hi.toNat * 256 + lo.toNat := by
  have h := hi.isLt
  have l := lo.isLt
  simp only [be16, BitVec.toNat_append]
  rw [← Nat.shiftLeft_add_eq_or_of_lt l, Nat.shiftLeft_eq]

@[simp] theorem be16_hi8_lo8 (v : U16) : be16 (hi8 v) (lo8 v) = v := by
  apply BitVec.eq_of_toNat_eq
  have := v.isLt
  rw [be16_toNat]
  simp only [hi8, lo8, BitVec.extractLsb'_toNat, Nat.shiftRight_eq_div_pow]
  omega

@[simp] theorem hi8_be16 (hi lo : Byte) : hi8 (be16 hi lo) = hi := by
  apply BitVec.eq_of_toNat_eq
  have h := hi.isLt
  have l := lo.isLt
  simp only [hi8, BitVec.extractLsb'_toNat, Nat.shiftRight_eq_div_pow, be16_toNat]
  omega

@[simp] theorem lo8_be16 (hi lo : Byte) : lo8 (be16 hi lo) = lo := by
  apply BitVec.eq_of_toNat_eq
  have h := hi.isLt
  have l := lo.isLt
  simp only [lo8, BitVec.extractLsb'_toNat, Nat.shiftRight_eq_div_pow, be16_toNat]
  omega

@[simp] theorem u16Bytes_length (v : U16) : (u16Bytes v).length = 2 := rfl

@[simp] theorem u32Bytes_length (v : U32) : (u32Bytes v).length = 4 := rfl

@[simp] theorem u16Bytes_be16 (hi lo : Byte) : u16Bytes (be16 hi lo) = [hi, lo] := by simp [u16Bytes]

@[simp] theorem blobBytes_length (d : Bytes) : (blobBytes d).length = 2 + d.length := by simp [blobBytes]

/-! ### BLOBs -/

/-- A BLOB that fits is read back from its bytes. -/
theorem blobOf_blobBytes {d : Bytes} (h : d.length ≤ 65535) : blobOf (blobBytes d) = some d := by
  have : d.length % 65536 = d.length := Nat.mod_eq_of_lt (by omega)
  simp [blobBytes, u16Bytes, blobOf, be16_hi8_lo8, BitVec.toNat_ofNat, this]

/-- Everything `blobOf` accepts is the bytes of a BLOB that fits. -/
theorem blobOf_eq_some {p d : Bytes} (h : blobOf p = some d) : p = blobBytes d ∧ d.length ≤ 65535 := by
  unfold blobOf at h
  split at h
  · next hi lo d' =>
    split at h
    · next hl =>
      cases h
      have hlt := (be16 hi lo).isLt
      refine ⟨?_, by omega⟩
      simp [blobBytes, hl, BitVec.ofNat_toNat]
    · cases h
  · cases h

/-- `blobOf` in terms of the packet's length. -/
theorem blobOf_cons (hi lo : Byte) (d : Bytes) :
    blobOf (hi :: lo :: d) = if d.length = hi.toNat * 256 + lo.toNat then some d else none := by
  simp only [blobOf, be16_toNat]

theorem blobOf_short {p : Bytes} (h : p.length < 2) : blobOf p = none := by
  match p, h with
  | [], _ => rfl
  | [_], _ => rfl

/-! ### The opcode map -/

/-- The opcode map is one to one. -/
@[simp] theorem Opcode.ofByte_byte (o : Opcode) : Opcode.ofByte o.byte = some o := by cases o <;> decide

theorem Opcode.byte_of_ofByte {b : Byte} {o : Opcode} (h : Opcode.ofByte b = some o) : o.byte = b := by
  have := List.find?_some h
  simpa using this

/-- No two rows of the opcode map share an opcode. -/
theorem Opcode.bytes_pairwise : Opcode.all.Pairwise fun a b => a.byte ≠ b.byte := by decide

/-! ### The command decoder -/

@[simp] theorem decode_nil : decode [] = .reject .malformed := rfl

/-- A packet whose first byte names a command is read by that command's format. -/
theorem decode_cons {op : Byte} {o : Opcode} (h : Opcode.ofByte op = some o) (rest : Bytes) :
    decode (op :: rest) = o.operands rest := by
  simp only [decode, h]

/-- Everything the decoder can answer. -/
theorem decode_cases (p : Bytes) :
    (p = [] ∧ decode p = .reject .malformed) ∨
    (∃ op rest, p = op :: rest ∧ Opcode.ofByte op = none ∧ decode p = .reject .illegalOpcode) ∨
    ∃ o rest, p = Opcode.byte o :: rest ∧ decode p = o.operands rest := by
  cases p with
  | nil => exact .inl ⟨rfl, rfl⟩
  | cons op rest =>
    cases h : Opcode.ofByte op with
    | none => exact .inr (.inl ⟨op, rest, rfl, h, by simp only [decode, h]⟩)
    | some o =>
      exact .inr (.inr ⟨o, rest, by rw [Opcode.byte_of_ofByte h], decode_cons h rest⟩)

/-! ### The parser's byte decode -/

@[simp] theorem PState.ofCode_code (s : PState) : PState.ofCode s.code = some s := by cases s <;> decide

/-- The rows the byte decode can select are those that apply. -/
theorem decodeByte_applies {c : KeyContext} {b : Byte} {t : Transition} (h : decodeByte c b = some t) :
    t.applies c b = true :=
  List.find?_some (p := fun u : Transition => u.applies c b) h

/-- At most one row applies (30_encoding.md R93: the conditions of each state are exclusive). -/
theorem Transition.applies_unique {c : KeyContext} {b : Byte} {t u : Transition} (ht : t.applies c b = true)
    (hu : u.applies c b = true) : t = u := by
  simp only [Transition.applies, Bool.and_eq_true, beq_iff_eq] at ht hu
  have hs : t.state = u.state := ht.1.trans hu.1.symm
  have h1 := ht.2
  have h2 := hu.2
  clear ht hu
  have zero : ∀ m : Nat, ¬ ((b = 0 ∨ m < b.toNat) ∧ 1 ≤ b.toNat ∧ b.toNat ≤ m) := by
    rintro m ⟨rfl | h, h3, h4⟩
    · exact absurd h3 (by decide)
    · omega
  cases t <;> cases u <;> first
    | rfl
    | exact PState.noConfusion hs
    | (simp [Transition.condition] at h1 h2; omega)
    | (simp [Transition.condition] at h1 h2; exact absurd ⟨h1, h2⟩ (zero _))
    | (simp [Transition.condition] at h1 h2; exact absurd ⟨h2, h1⟩ (zero _))
    | (simp [Transition.condition] at h1 h2; simp_all)

/-- A row that applies is the one the byte decode selects. -/
theorem decodeByte_of_applies {c : KeyContext} {b : Byte} {t : Transition} (h : t.applies c b = true) :
    decodeByte c b = some t := by
  cases hd : decodeByte c b with
  | some u => rw [Transition.applies_unique (decodeByte_applies hd) h]
  | none =>
    have := List.find?_eq_none.mp hd t (by cases t <;> decide)
    exact absurd h this

/-- A key whose code is the parser's own state decodes by the byte decode of that state. -/
theorem decodeKey_state (c : KeyContext) (b : Byte) :
    decodeKey c c.state.code b = (decodeByte c b).map fun t => t.instr b := by
  simp [decodeKey]

end Sys2Proof
end

