-- ==== Sys2Proof/Laws/State.lean ====
section
/-! SUPPORT. What each update of the state does to each field, and what the slots read as afterwards. -/

namespace Sys2Proof.Machine

/-! ### `State.answer` -/

@[simp] theorem State.answer_cfg (s : State) (p : Bytes) : (s.answer p).cfg = s.cfg := rfl

@[simp] theorem State.answer_crcAcc (s : State) (p : Bytes) : (s.answer p).crcAcc = s.crcAcc := rfl

@[simp] theorem State.answer_parser (s : State) (p : Bytes) : (s.answer p).parser = s.parser := rfl

@[simp] theorem State.answer_slots (s : State) (p : Bytes) : (s.answer p).slots = s.slots := rfl

@[simp] theorem State.answer_counters (s : State) (p : Bytes) : (s.answer p).counters = s.counters := rfl

@[simp] theorem State.answer_event (s : State) (p : Bytes) : (s.answer p).event = none := rfl

@[simp] theorem State.answer_port (s : State) (p : Bytes) : (s.answer p).port = s.port := rfl

@[simp] theorem State.answer_responses (s : State) (p : Bytes) : (s.answer p).responses = s.responses ++ [p] := rfl

@[simp] theorem State.answer_readouts (s : State) (p : Bytes) : (s.answer p).readouts = s.readouts := rfl

/-! ### `State.respond` -/

@[simp] theorem State.respond_cfg (s : State) (f : Bytes) : (s.respond f).cfg = s.cfg := rfl

@[simp] theorem State.respond_crcAcc (s : State) (f : Bytes) : (s.respond f).crcAcc = s.crcAcc := rfl

@[simp] theorem State.respond_parser (s : State) (f : Bytes) : (s.respond f).parser = s.parser := rfl

@[simp] theorem State.respond_slots (s : State) (f : Bytes) : (s.respond f).slots = s.slots := rfl

@[simp] theorem State.respond_counters (s : State) (f : Bytes) : (s.respond f).counters = s.counters := rfl

@[simp] theorem State.respond_event (s : State) (f : Bytes) : (s.respond f).event = none := rfl

@[simp] theorem State.respond_port (s : State) (f : Bytes) : (s.respond f).port = s.port := rfl

@[simp] theorem State.respond_responses (s : State) (f : Bytes) : (s.respond f).responses = s.responses ++ [0x00 :: f] := rfl

@[simp] theorem State.respond_readouts (s : State) (f : Bytes) : (s.respond f).readouts = s.readouts := rfl

/-! ### `State.raise` -/

@[simp] theorem State.raise_cfg (s : State) (st : Status) : (s.raise st).cfg = s.cfg := rfl

@[simp] theorem State.raise_crcAcc (s : State) (st : Status) : (s.raise st).crcAcc = s.crcAcc := rfl

@[simp] theorem State.raise_parser (s : State) (st : Status) : (s.raise st).parser = s.parser := rfl

@[simp] theorem State.raise_slots (s : State) (st : Status) : (s.raise st).slots = s.slots := rfl

@[simp] theorem State.raise_counters (s : State) (st : Status) : (s.raise st).counters = s.counters := rfl

@[simp] theorem State.raise_event (s : State) (st : Status) : (s.raise st).event = none := rfl

@[simp] theorem State.raise_port (s : State) (st : Status) : (s.raise st).port = s.port := rfl

@[simp] theorem State.raise_responses (s : State) (st : Status) : (s.raise st).responses = s.responses ++ [[statusByte st]] := rfl

@[simp] theorem State.raise_readouts (s : State) (st : Status) : (s.raise st).readouts = s.readouts := rfl

/-! ### `State.resetParser` -/

@[simp] theorem State.resetParser_cfg (s : State) : s.resetParser.cfg = s.cfg := rfl

@[simp] theorem State.resetParser_crcAcc (s : State) : s.resetParser.crcAcc = s.crcAcc := rfl

@[simp] theorem State.resetParser_parser (s : State) : s.resetParser.parser = Parser.reset := rfl

@[simp] theorem State.resetParser_slots (s : State) : s.resetParser.slots = s.slots := rfl

@[simp] theorem State.resetParser_counters (s : State) : s.resetParser.counters = s.counters := rfl

@[simp] theorem State.resetParser_event (s : State) : s.resetParser.event = s.event := rfl

@[simp] theorem State.resetParser_port (s : State) : s.resetParser.port = s.port := rfl

@[simp] theorem State.resetParser_responses (s : State) : s.resetParser.responses = s.responses := rfl

@[simp] theorem State.resetParser_readouts (s : State) : s.resetParser.readouts = s.readouts := rfl

/-! ### `State.setSlot` -/

@[simp] theorem State.setSlot_cfg (s : State) (t : Byte) (x : Slot) : (s.setSlot t x).cfg = s.cfg := rfl

@[simp] theorem State.setSlot_crcAcc (s : State) (t : Byte) (x : Slot) : (s.setSlot t x).crcAcc = s.crcAcc := rfl

@[simp] theorem State.setSlot_parser (s : State) (t : Byte) (x : Slot) : (s.setSlot t x).parser = s.parser := rfl

@[simp] theorem State.setSlot_slots (s : State) (t : Byte) (x : Slot) : (s.setSlot t x).slots = s.slots.set t.toNat x t.isLt := rfl

@[simp] theorem State.setSlot_counters (s : State) (t : Byte) (x : Slot) : (s.setSlot t x).counters = s.counters := rfl

@[simp] theorem State.setSlot_event (s : State) (t : Byte) (x : Slot) : (s.setSlot t x).event = s.event := rfl

@[simp] theorem State.setSlot_port (s : State) (t : Byte) (x : Slot) : (s.setSlot t x).port = s.port := rfl

@[simp] theorem State.setSlot_responses (s : State) (t : Byte) (x : Slot) : (s.setSlot t x).responses = s.responses := rfl

@[simp] theorem State.setSlot_readouts (s : State) (t : Byte) (x : Slot) : (s.setSlot t x).readouts = s.readouts := rfl

/-! ### `State.clearSlots` -/

@[simp] theorem State.clearSlots_cfg (s : State) : s.clearSlots.cfg = s.cfg := rfl

@[simp] theorem State.clearSlots_crcAcc (s : State) : s.clearSlots.crcAcc = s.crcAcc := rfl

@[simp] theorem State.clearSlots_parser (s : State) : s.clearSlots.parser = s.parser := rfl

@[simp] theorem State.clearSlots_slots (s : State) : s.clearSlots.slots = Vector.replicate 256 Slot.reset := rfl

@[simp] theorem State.clearSlots_counters (s : State) : s.clearSlots.counters = s.counters := rfl

@[simp] theorem State.clearSlots_event (s : State) : s.clearSlots.event = s.event := rfl

@[simp] theorem State.clearSlots_port (s : State) : s.clearSlots.port = s.port := rfl

@[simp] theorem State.clearSlots_responses (s : State) : s.clearSlots.responses = s.responses := rfl

@[simp] theorem State.clearSlots_readouts (s : State) : s.clearSlots.readouts = s.readouts := rfl

/-! ### `State.deliver` -/

@[simp] theorem State.deliver_cfg (s : State) (p : Bytes) : (s.deliver p).cfg = s.cfg := rfl

@[simp] theorem State.deliver_crcAcc (s : State) (p : Bytes) : (s.deliver p).crcAcc = s.crcAcc := rfl

@[simp] theorem State.deliver_parser (s : State) (p : Bytes) : (s.deliver p).parser = s.parser := rfl

@[simp] theorem State.deliver_slots (s : State) (p : Bytes) : (s.deliver p).slots = s.slots := rfl

@[simp] theorem State.deliver_counters (s : State) (p : Bytes) : (s.deliver p).counters = s.counters := rfl

@[simp] theorem State.deliver_event (s : State) (p : Bytes) : (s.deliver p).event = s.event := rfl

@[simp] theorem State.deliver_port (s : State) (p : Bytes) : (s.deliver p).port = p :: s.port := rfl

@[simp] theorem State.deliver_responses (s : State) (p : Bytes) : (s.deliver p).responses = s.responses := rfl

@[simp] theorem State.deliver_readouts (s : State) (p : Bytes) : (s.deliver p).readouts = s.readouts := rfl

/-! ### Reading a slot -/

theorem State.slot_congr {s t : State} (h : s.slots = t.slots) (u : Byte) : s.slot u = t.slot u := by
  simp only [State.slot, h]

@[simp] theorem State.answer_slot (s : State) (p : Bytes) (u : Byte) : (s.answer p).slot u = s.slot u := rfl

@[simp] theorem State.respond_slot (s : State) (f : Bytes) (u : Byte) : (s.respond f).slot u = s.slot u := rfl

@[simp] theorem State.raise_slot (s : State) (st : Status) (u : Byte) : (s.raise st).slot u = s.slot u := rfl

@[simp] theorem State.resetParser_slot (s : State) (u : Byte) : s.resetParser.slot u = s.slot u := rfl

@[simp] theorem State.deliver_slot (s : State) (p : Bytes) (u : Byte) : (s.deliver p).slot u = s.slot u := rfl

@[simp] theorem State.setSlot_slot_self (s : State) (t : Byte) (x : Slot) : (s.setSlot t x).slot t = x := by
  simp [State.slot, State.setSlot]

theorem State.setSlot_slot_ne (s : State) {t u : Byte} (x : Slot) (h : u ≠ t) : (s.setSlot t x).slot u = s.slot u := by
  have h' : t.toNat ≠ u.toNat := fun e => h (BitVec.eq_of_toNat_eq e.symm)
  simp [State.slot, State.setSlot, h']

theorem State.setSlot_slot (s : State) (t u : Byte) (x : Slot) :
    (s.setSlot t x).slot u = if u = t then x else s.slot u := by
  split
  · next h => subst h; simp
  · next h => exact s.setSlot_slot_ne x h

@[simp] theorem State.clearSlots_slot (s : State) (u : Byte) : s.clearSlots.slot u = Slot.reset := by
  simp [State.slot, State.clearSlots]

@[simp] theorem State.reset_slot (u : Byte) : State.reset.slot u = Slot.reset := by
  simp [State.slot, State.reset]

/-- Two states whose slots read the same hold the same slots. -/
theorem State.slots_ext {s t : State} (h : ∀ u, s.slot u = t.slot u) : s.slots = t.slots := by
  apply Vector.ext
  intro i hi
  have := h (BitVec.ofNat 8 i)
  have hm : i % 256 = i := Nat.mod_eq_of_lt hi
  simpa [State.slot, BitVec.toNat_ofNat, hm] using this

/-- Writing back the slot that is there changes nothing. -/
@[simp] theorem State.setSlot_self (s : State) (t : Byte) : s.setSlot t (s.slot t) = s := by
  have : (s.setSlot t (s.slot t)).slots = s.slots :=
    State.slots_ext fun u => by rw [State.setSlot_slot]; split <;> simp_all
  simp only [State.setSlot_slots] at this
  simp [State.setSlot, this]

/-! ### The port -/

/-- Everything `fetch` can answer. -/
theorem State.fetch_eq (s : State) :
    (s.port = [] ∧ s.fetch = none) ∨
      ∃ p rest, s.port = p :: rest ∧ s.fetch = some (p, { s with port := rest }) := by
  unfold State.fetch
  cases h : s.port with
  | nil => exact .inl ⟨rfl, rfl⟩
  | cons p rest => exact .inr ⟨p, rest, rfl, rfl⟩

end Sys2Proof.Machine
end

