-- ==== Sys2Proof/Laws/Parser.lean ====
section
/-! SUPPORT. What a parser transition and `prs_step` can do: the row that is taken, what they leave alone, and that
they keep the parser's invariants. -/

namespace Sys2Proof.Machine

open Sys2Proof

/-! ### What a transition leaves alone -/

@[simp] theorem runTransition_cfg (t : Transition) (b : Byte) (s : State) : (runTransition t b s).cfg = s.cfg := by
  cases t <;> rfl

@[simp] theorem runTransition_crcAcc (t : Transition) (b : Byte) (s : State) :
    (runTransition t b s).crcAcc = s.crcAcc := by cases t <;> rfl

@[simp] theorem runTransition_slots (t : Transition) (b : Byte) (s : State) :
    (runTransition t b s).slots = s.slots := by cases t <;> rfl

@[simp] theorem runTransition_slot (t : Transition) (b : Byte) (s : State) (u : Byte) :
    (runTransition t b s).slot u = s.slot u := State.slot_congr (runTransition_slots t b s) u

@[simp] theorem runTransition_port (t : Transition) (b : Byte) (s : State) : (runTransition t b s).port = s.port := by
  cases t <;> rfl

@[simp] theorem runTransition_responses (t : Transition) (b : Byte) (s : State) :
    (runTransition t b s).responses = s.responses := by cases t <;> rfl

@[simp] theorem runTransition_readouts (t : Transition) (b : Byte) (s : State) :
    (runTransition t b s).readouts = s.readouts := by cases t <;> rfl

/-- A transition emits an event when its frame's CRC matches, and no other does. -/
theorem runTransition_event (t : Transition) (b : Byte) (s : State) :
    (runTransition t b s).event = if t = .crcMatch then some (frameEvent s.parser b) else none := by
  cases t <;> rfl

/-! ### Which transition is taken -/

/-- The decoder's test of a row is the row of R93. -/
theorem applies_iff_row (t : Transition) (s : State) (b : Byte) : t.applies s.keyContext b = true ↔ t.Row s b := by
  cases t <;>
    simp only [Transition.applies, Transition.state, Transition.condition, Transition.Row, Bool.and_eq_true,
      Bool.or_eq_true, beq_iff_eq, bne_iff_ne, ne_eq, decide_eq_true_iff, and_true,
      eq_comm (a := s.parser.state)] <;>
    exact Iff.rfl

/-- A transition runs where its row holds. -/
theorem exec_transition {t : Transition} {s : State} {b : Byte} (h : t.Row s b) :
    exec (t.instr b) s = .next (runTransition t b s) := by
  have ha := (applies_iff_row t s b).mpr h
  cases t
  case syncHit =>
    obtain ⟨-, rfl⟩ := h
    exact if_pos ha
  all_goals exact if_pos ha

/-- Where its row does not hold a transition is stuck. -/
theorem exec_transition_stuck {t : Transition} {s : State} {b : Byte} (hb : t = .syncHit → b = 0xAA)
    (h : ¬ t.Row s b) : exec (t.instr b) s = .fault .noTransition := by
  have ha : ¬ t.applies s.keyContext b = true := fun e => h ((applies_iff_row t s b).mp e)
  cases t
  case syncHit =>
    cases hb rfl
    exact if_neg ha
  all_goals exact if_neg ha

/-- `prs_step` takes the transition whose row holds. -/
theorem prsStep_of_row {t : Transition} {s : State} {b : Byte} (h : t.Row s b) :
    prsStep b s = some (runTransition t b s) := by
  rw [prsStep, decodeByte_of_applies ((applies_iff_row t s b).mpr h), Option.map_some]

/-- Everything `prs_step` can do: run one transition whose row holds, or nothing when no row does. -/
theorem prsStep_cases (b : Byte) (s : State) :
    (∃ t : Transition, t.Row s b ∧ prsStep b s = some (runTransition t b s)) ∨
      (prsStep b s = none ∧ ∀ t : Transition, ¬ t.Row s b) := by
  cases h : decodeByte s.keyContext b with
  | some t =>
    have hr := (applies_iff_row t s b).mp (decodeByte_applies h)
    exact .inl ⟨t, hr, prsStep_of_row hr⟩
  | none =>
    refine .inr ⟨by rw [prsStep, h, Option.map_none], fun t ht => ?_⟩
    have := decodeByte_of_applies ((applies_iff_row t s b).mpr ht)
    rw [h] at this
    cases this

/-- Under the parser's invariants some row holds of every byte. -/
theorem row_exists {s : State} (h : s.parser.Inv s.cfg.maxPayload) (b : Byte) : ∃ t : Transition, t.Row s b := by
  cases hs : s.parser.state with
  | sync =>
    by_cases hb : b = 0xAA
    · exact ⟨.syncHit, hs, hb⟩
    · exact ⟨.syncDrop, hs, hb⟩
  | len =>
    by_cases hb : b = 0 ∨ s.cfg.maxPayload.toNat < b.toNat
    · exact ⟨.lenBad, hs, hb⟩
    · refine ⟨.lenOk, hs, ?_, by omega⟩
      have : b.toNat ≠ 0 := fun e => hb (.inl (BitVec.eq_of_toNat_eq e))
      omega
  | data =>
    simp only [Parser.Inv, hs] at h
    by_cases hb : s.parser.acc.length + 1 < s.parser.len.toNat
    · exact ⟨.data, hs, hb⟩
    · exact ⟨.dataLast, hs, by omega⟩
  | crcHi => exact ⟨.crcHi, hs⟩
  | crcLo =>
    by_cases hb : be16 s.parser.crcHi b = s.parser.crc
    · exact ⟨.crcMatch, hs, hb⟩
    · exact ⟨.crcMismatch, hs, hb⟩

/-! ### The parser's invariants -/

theorem Parser.reset_inv (m : Byte) : Parser.reset.Inv m := rfl

/-- Every transition keeps the parser's invariants (10_state.md R30). -/
theorem runTransition_parser_inv {t : Transition} {s : State} {b : Byte} (h : t.Row s b)
    (hi : s.parser.Inv s.cfg.maxPayload) : (runTransition t b s).parser.Inv s.cfg.maxPayload := by
  cases t
  case syncHit => exact ⟨rfl, rfl⟩
  case syncDrop => exact hi
  case lenBad => exact Parser.reset_inv _
  case lenOk =>
    obtain ⟨hs, h1, h2⟩ := h
    simp only [Parser.Inv, hs] at hi
    simp only [runTransition, lenOk, Parser.Inv, hi.1, hi.2, compute_cons, compute_nil, List.length_nil]
    exact ⟨h1, h2, h1, trivial⟩
  case data =>
    obtain ⟨hs, h1⟩ := h
    simp only [Parser.Inv, hs] at hi
    obtain ⟨h2, h3, -, h5⟩ := hi
    simp only [runTransition, dataByte, Parser.Inv, hs]
    refine ⟨h2, h3, by rw [List.length_append]; exact h1, ?_⟩
    rw [h5, ← List.cons_append, compute_concat]
  case dataLast =>
    obtain ⟨hs, h1⟩ := h
    simp only [Parser.Inv, hs] at hi
    obtain ⟨h2, h3, -, h5⟩ := hi
    simp only [runTransition, dataLast, Parser.Inv]
    refine ⟨h2, h3, by rw [List.length_append]; exact h1, ?_⟩
    rw [h5, ← List.cons_append, compute_concat]
  case crcHi =>
    simp only [Parser.Inv, show s.parser.state = .crcHi from h] at hi
    exact hi
  case crcMatch => exact Parser.reset_inv _
  case crcMismatch => exact Parser.reset_inv _

/-! ### PRS_FEED -/

theorem exec_prsFeed_of_row {t : Transition} {s : State} {b : Byte} (h : t.Row s b) :
    exec (.prsFeed b) s =
      .next ((runTransition t b s).respond (evtBytes (runTransition t b s).event)) := by
  show execPrsFeed b s = _
  rw [execPrsFeed, prsStep_of_row h]

/-- Everything PRS_FEED can do. -/
theorem exec_prsFeed_cases (b : Byte) (s : State) :
    (∃ t : Transition, t.Row s b ∧ exec (.prsFeed b) s =
        .next ((runTransition t b s).respond (evtBytes (runTransition t b s).event))) ∨
      ((∀ t : Transition, ¬ t.Row s b) ∧ exec (.prsFeed b) s = .fault .noTransition) := by
  rcases prsStep_cases b s with ⟨t, ht, -⟩ | ⟨hn, hr⟩
  · exact .inl ⟨t, ht, exec_prsFeed_of_row ht⟩
  · refine .inr ⟨hr, ?_⟩
    show execPrsFeed b s = _
    rw [execPrsFeed, hn]

end Sys2Proof.Machine
end

