-- ==== Sys2Proof/Laws/Reassembler.lean ====
section
/-! SUPPORT. What the reassembler can do: what `rsm_parse` accepts, every outcome of `rsm_accept` and what it leaves
alone, that the slot invariants are kept, and the outcomes of RX_BYTE. -/

namespace Sys2Proof.Machine

open Sys2Proof

/-! ### The header -/

/-- Exactly the consistent data chunks are accepted (44_reassembler.md R191). -/
theorem rsmParse_eq_some (d : Bytes) (g : Segment) : rsmParse d = some g ↔
    (∃ t1 t0 o1 o0, d = 0x01 :: g.tid :: t1 :: t0 :: o1 :: o0 :: g.len :: g.chunk ∧
      g.total = be16 t1 t0 ∧ g.off = be16 o1 o0) ∧
    g.len.toNat = g.chunk.length ∧ g.off.toNat + g.len.toNat ≤ g.total.toNat := by
  constructor
  · intro h
    unfold rsmParse at h
    split at h
    · split at h
      · next hc =>
        obtain ⟨rfl, h2, h3⟩ := hc
        cases h
        exact ⟨⟨_, _, _, _, rfl, rfl, rfl⟩, h2, h3⟩
      · cases h
    · cases h
  · rintro ⟨⟨t1, t0, o1, o0, rfl, ht, ho⟩, h1, h2⟩
    rw [ht, ho] at h2
    simp only [rsmParse, true_and]
    rw [if_pos ⟨h1, h2⟩]
    simp only [← ht, ← ho]

/-- The id of an accepted segment is the data's second byte. -/
theorem rsmParse_tid {d : Bytes} {g : Segment} (h : rsmParse d = some g) : d[1]? = some g.tid := by
  obtain ⟨⟨t1, t0, o1, o0, rfl, -⟩, -⟩ := (rsmParse_eq_some d g).mp h
  rfl

/-! ### The outcomes of `rsm_accept` -/

/-- The data is refused: no usable segment, or a total mismatch under REJECT (R205). -/
def Refuses (s : State) (d : Bytes) : Prop :=
  rsmParse d = none ∨ ∃ g, rsmParse d = some g ∧ (s.slot g.tid).mismatch g = true ∧ s.cfg.policy = .reject

/-- The slot after R192 to R194. -/
def written (s : State) (g : Segment) : Slot := ((s.slot g.tid).opened g).accept s.cfg.mode g

/-- Everything `rsm_accept` can do: refuse and change nothing, report progress and write one slot, or complete and
reset that slot. -/
theorem rsmAccept_cases (s : State) (d : Bytes) :
    (Refuses s d ∧ rsmAccept s d = (s, .notSegmented)) ∨
    ∃ g, rsmParse d = some g ∧ ¬ ((s.slot g.tid).mismatch g = true ∧ s.cfg.policy = .reject) ∧
      (((written s g).done s.cfg.mode = false ∧
          rsmAccept s d =
            (s.setSlot g.tid (written s g), .progress g.tid ((written s g).soFar s.cfg.mode))) ∨
        ((written s g).done s.cfg.mode = true ∧
          rsmAccept s d =
            ({ s.setSlot g.tid Slot.reset with readouts := s.readouts + 1 },
              .complete g.tid (Memory.readout (written s g).buf (written s g).total.toNat s.readouts)))) := by
  cases hp : rsmParse d with
  | none => exact .inl ⟨.inl hp, by simp only [rsmAccept, hp]⟩
  | some g =>
    by_cases hm : (s.slot g.tid).mismatch g = true ∧ s.cfg.policy = .reject
    · exact .inl ⟨.inr ⟨g, hp, hm⟩, by simp only [rsmAccept, hp, if_pos hm]⟩
    · refine .inr ⟨g, rfl, hm, ?_⟩
      cases hd : (written s g).done s.cfg.mode with
      | false =>
        refine .inl ⟨rfl, ?_⟩
        rw [written] at hd
        simp only [rsmAccept, hp, if_neg hm, rsmWrite, hd, Bool.false_eq_true, if_false, written]
      | true =>
        refine .inr ⟨rfl, ?_⟩
        rw [written] at hd
        simp only [rsmAccept, hp, if_neg hm, rsmWrite, hd, if_true, written]

/-- What `rsm_accept` leaves alone, whatever the data. -/
theorem rsmAccept_frame (s : State) (d : Bytes) :
    (rsmAccept s d).1.cfg = s.cfg ∧ (rsmAccept s d).1.crcAcc = s.crcAcc ∧ (rsmAccept s d).1.parser = s.parser ∧
      (rsmAccept s d).1.counters = s.counters ∧ (rsmAccept s d).1.event = s.event ∧
      (rsmAccept s d).1.port = s.port ∧ (rsmAccept s d).1.responses = s.responses := by
  rcases rsmAccept_cases s d with ⟨-, h⟩ | ⟨g, -, -, ⟨-, h⟩ | ⟨-, h⟩⟩ <;> rw [h] <;>
    exact ⟨rfl, rfl, rfl, rfl, rfl, rfl, rfl⟩

/-- `rsm_accept` touches only the slot of its segment's id (R206). -/
theorem rsmAccept_slot_ne {s : State} {d : Bytes} {u : Byte} (h : carriesId u d = false) :
    (rsmAccept s d).1.slot u = s.slot u := by
  have key : ∀ g, rsmParse d = some g → u ≠ g.tid := by
    intro g hg e
    simp [carriesId, rsmParse_tid hg, e] at h
  rcases rsmAccept_cases s d with ⟨-, h⟩ | ⟨g, hg, -, ⟨-, h⟩ | ⟨-, h⟩⟩ <;> rw [h]
  · exact State.setSlot_slot_ne s _ (key g hg)
  · exact State.setSlot_slot_ne s _ (key g hg)

/-- RSM_ACCEPT answers the result of `rsm_accept`. -/
theorem exec_rsmAccept (d : Bytes) (s : State) :
    exec (.rsmAccept d) s = .next ((rsmAccept s d).1.respond (resBytes (rsmAccept s d).2)) := rfl

/-! ### The slot invariants -/

/-- The invariants of an active slot (R35). -/
theorem Slot.inv_active {x : Slot} {mode : CompletionMode} (ha : x.active = true) : x.Inv mode ↔
    Memory.wf x.buf ∧ (∀ c ∈ x.buf, c.1 < x.total.toNat) ∧
      (match mode with
        | .counter => x.received.toNat < x.total.toNat
        | .coverage => x.received = 0 ∧ Memory.written x.buf < x.total.toNat) := by
  cases mode <;> simp only [Slot.Inv, ha, if_true]

/-- An inactive slot holds its reset value (R35). -/
theorem Slot.inv_inactive {x : Slot} {mode : CompletionMode} (ha : x.active = false) :
    x.Inv mode ↔ x = Slot.reset := by
  unfold Slot.Inv
  rw [if_neg (by simp [ha])]

theorem Slot.reset_inv (mode : CompletionMode) : Slot.reset.Inv mode := by simp [Slot.Inv, Slot.reset]

/-- The slot that R192 and R193 open: active, with the segment's total, a canonical buffer whose cells lie below it,
a count below the total or 0, and 0 under COVERAGE. -/
theorem Slot.opened_spec {x : Slot} {mode : CompletionMode} {g : Segment} (h : x.Inv mode) :
    (x.opened g).active = true ∧ (x.opened g).total = g.total ∧ Memory.wf (x.opened g).buf ∧
      (∀ c ∈ (x.opened g).buf, c.1 < g.total.toNat) ∧
      (mode = .counter → (x.opened g).received = 0 ∨ (x.opened g).received.toNat < g.total.toNat) ∧
      (mode = .coverage → (x.opened g).received = 0) := by
  unfold Slot.opened
  split
  · next hc =>
    obtain ⟨ha, hm⟩ := hc
    have ht : x.total = g.total := by
      simpa [Slot.mismatch, ha] using hm
    rw [Slot.inv_active ha] at h
    obtain ⟨hw, hb, hr⟩ := h
    refine ⟨ha, ht, hw, ht ▸ hb, ?_, ?_⟩
    · rintro rfl; exact .inr (ht ▸ hr)
    · rintro rfl; exact hr.1
  · exact ⟨rfl, rfl, by simp [Slot.create, Memory.wf], by simp [Slot.create], fun _ => .inl rfl, fun _ => rfl⟩

/-- The chunk lies inside the buffer, so writing keeps the buffer canonical and inside its total (20_memory.md R56). -/
theorem Slot.accept_spec {x : Slot} {mode : CompletionMode} {g : Segment} (hl : g.len.toNat = g.chunk.length)
    (hb : g.off.toNat + g.len.toNat ≤ g.total.toNat) (ht : x.total = g.total) (hw : Memory.wf x.buf)
    (hc : ∀ c ∈ x.buf, c.1 < g.total.toNat) :
    (x.accept mode g).active = x.active ∧ (x.accept mode g).total = g.total ∧ Memory.wf (x.accept mode g).buf ∧
      ∀ c ∈ (x.accept mode g).buf, c.1 < g.total.toNat := by
  refine ⟨rfl, ht, Memory.writeBytes_wf _ _ hw, fun c h => ?_⟩
  rcases Memory.mem_writeBytes h with h | h
  · omega
  · exact hc c h

/-- The completion test by counting (R195, R36). -/
theorem Slot.done_iff {x : Slot} {mode : CompletionMode} (hw : Memory.wf x.buf)
    (hb : ∀ c ∈ x.buf, c.1 < x.total.toNat) : x.done mode = true ↔
      x.total.toNat ≤ (match mode with
        | .counter => x.received.toNat
        | .coverage => Memory.written x.buf) := by
  cases mode
  · exact decide_eq_true_iff
  · exact Memory.noHole_iff hw hb

/-- What the slot holds after R192 to R194, for a segment with a consistent header. -/
theorem written_spec {s : State} {d : Bytes} {g : Segment} (hg : rsmParse d = some g)
    (hi : (s.slot g.tid).Inv s.cfg.mode) :
    (written s g).active = true ∧ (written s g).total = g.total ∧ Memory.wf (written s g).buf ∧
      (∀ c ∈ (written s g).buf, c.1 < (written s g).total.toNat) ∧
      (s.cfg.mode = .coverage → (written s g).received = 0) := by
  obtain ⟨-, hl, hb⟩ := (rsmParse_eq_some d g).mp hg
  obtain ⟨oa, ot, ow, oc, -, ocov⟩ := Slot.opened_spec (g := g) hi
  obtain ⟨aa, at', aw, ac⟩ := Slot.accept_spec (mode := s.cfg.mode) hl hb ot ow oc
  refine ⟨aa.trans oa, at', aw, by rw [written, at']; exact ac, fun hm => ?_⟩
  simp only [written, Slot.accept, hm]
  exact ocov hm

/-- The cells after R192 to R194: the chunk's bytes at the segment's offset, the opened slot's cells elsewhere. -/
theorem written_read (s : State) (g : Segment) (a : Nat) :
    Memory.read (written s g).buf a =
      if g.off.toNat ≤ a ∧ a < g.off.toNat + g.chunk.length then g.chunk[a - g.off.toNat]?
      else Memory.read ((s.slot g.tid).opened g).buf a := Memory.read_writeBytes _ _ _ _

/-- A slot that is not complete after the write meets the slot invariants (10_state.md R35). -/
theorem written_inv {s : State} {d : Bytes} {g : Segment} (hg : rsmParse d = some g)
    (hi : (s.slot g.tid).Inv s.cfg.mode) (hd : (written s g).done s.cfg.mode = false) :
    (written s g).Inv s.cfg.mode := by
  obtain ⟨ha, -, hw, hb, hcov⟩ := written_spec hg hi
  have hn : ¬ (written s g).done s.cfg.mode = true := by simp [hd]
  rw [Slot.done_iff hw hb] at hn
  rw [Slot.inv_active ha]
  refine ⟨hw, hb, ?_⟩
  cases hm : s.cfg.mode with
  | counter => rw [hm] at hn; exact Nat.lt_of_not_le hn
  | coverage => rw [hm] at hn; exact ⟨hcov hm, Nat.lt_of_not_le hn⟩

/-- `rsm_accept` keeps every slot's invariants. -/
theorem rsmAccept_slots_inv {s : State} (h : ∀ u, (s.slot u).Inv s.cfg.mode) (d : Bytes) :
    ∀ u, ((rsmAccept s d).1.slot u).Inv s.cfg.mode := by
  intro u
  rcases rsmAccept_cases s d with ⟨-, he⟩ | ⟨g, hg, -, ⟨hd, he⟩ | ⟨hd, he⟩⟩ <;> rw [he]
  · exact h u
  · show ((s.setSlot g.tid (written s g)).slot u).Inv _
    rw [State.setSlot_slot]
    split
    · exact written_inv hg (h _) hd
    · exact h u
  · show ((s.setSlot g.tid Slot.reset).slot u).Inv _
    rw [State.setSlot_slot]
    split
    · exact Slot.reset_inv _
    · exact h u

/-! ### RX_BYTE -/

/-- RX_BYTE on a byte that completes no frame. -/
theorem exec_rxByte_of_row {t : Transition} {s : State} {b : Byte} (h : t.Row s b) (hne : t ≠ .crcMatch) :
    exec (.rxByte b) s = .next ((runTransition t b s).respond [0x00]) := by
  show execRxByte b s = _
  simp only [execRxByte, prsStep_of_row h, runTransition_event, if_neg hne]
  rfl

/-- RX_BYTE on the byte that completes a frame. -/
theorem exec_rxByte_match {s : State} {b : Byte} (h : Transition.crcMatch.Row s b) :
    exec (.rxByte b) s =
      .next ((rsmAccept (crcMatch b s) s.parser.acc).1.respond
        (evtBytes (some (frameEvent s.parser b)) ++ resBytes (rsmAccept (crcMatch b s) s.parser.acc).2)) := by
  show execRxByte b s = _
  simp only [execRxByte, prsStep_of_row h, runTransition_event]
  rfl

/-- Everything RX_BYTE can do. -/
theorem exec_rxByte_cases (b : Byte) (s : State) :
    (∃ t : Transition, t.Row s b ∧ t ≠ .crcMatch ∧
      exec (.rxByte b) s = .next ((runTransition t b s).respond [0x00])) ∨
    (Transition.crcMatch.Row s b ∧ exec (.rxByte b) s =
      .next ((rsmAccept (crcMatch b s) s.parser.acc).1.respond
        (evtBytes (some (frameEvent s.parser b)) ++ resBytes (rsmAccept (crcMatch b s) s.parser.acc).2))) ∨
    ((∀ t : Transition, ¬ t.Row s b) ∧ exec (.rxByte b) s = .fault .noTransition) := by
  rcases prsStep_cases b s with ⟨t, ht, -⟩ | ⟨hn, hr⟩
  · by_cases he : t = .crcMatch
    · subst he; exact .inr (.inl ⟨ht, exec_rxByte_match ht⟩)
    · exact .inl ⟨t, ht, he, exec_rxByte_of_row ht he⟩
  · refine .inr (.inr ⟨hr, ?_⟩)
    show execRxByte b s = _
    simp only [execRxByte, hn]

end Sys2Proof.Machine
end

