-- ==== Sys2Proof/Laws/Segment.lean ====
section
/-! SUPPORT. The slicing loop of the splitter in closed form, and the lengths of frames and headers. -/

namespace Sys2Proof.Machine

open Sys2Proof

theorem pieceCount_zero {c : Nat} (hc : 0 < c) : pieceCount c 0 = 0 :=
  Nat.div_eq_of_lt (by omega)

/-- One piece more for each `c` bytes more, the last piece being short or full. -/
theorem pieceCount_succ {c n : Nat} (hc : 0 < c) (hn : 0 < n) : pieceCount c n = pieceCount c (n - c) + 1 := by
  unfold pieceCount
  rcases Nat.lt_or_ge c n with h | h
  · have : n + c - 1 = (n - c + c - 1) + c := by omega
    rw [this, Nat.add_div_right _ hc]
  · have h1 : n - c = 0 := by omega
    rw [h1, Nat.div_eq_of_lt (show 0 + c - 1 < c by omega)]
    exact Nat.div_eq_of_lt_le (by omega) (by omega)

/-- The slicing loop: piece `i` starts `i * c` bytes on and holds at most `c` bytes (43_segment_codec.md R174). -/
theorem slices_eq {c : Nat} (hc : 0 < c) (fuel off : Nat) (d : Bytes) (hf : d.length ≤ fuel) :
    slices c fuel off d =
      (List.range (pieceCount c d.length)).map fun i => (off + i * c, (d.drop (i * c)).take c) := by
  induction fuel generalizing off d with
  | zero =>
    have : d = [] := List.length_eq_zero_iff.mp (by omega)
    subst this
    simp [slices, pieceCount_zero hc]
  | succ fuel ih =>
    cases d with
    | nil => simp [slices, pieceCount_zero hc]
    | cons b rest =>
      have hlen : ((b :: rest).drop c).length ≤ fuel := by
        simp only [List.length_drop, List.length_cons] at *; omega
      rw [slices, ih _ _ hlen, pieceCount_succ hc (by simp : 0 < (b :: rest).length), List.range_succ_eq_map,
        List.map_cons, List.map_map, List.length_drop]
      simp only [Nat.zero_mul, Nat.add_zero, List.drop_zero]
      congr 1
      apply List.map_congr_left
      intro i hi
      have hi' : i < pieceCount c ((b :: rest).length - c) := List.mem_range.mp hi
      have hfull : c ≤ (b :: rest).length := by
        by_contra h
        rw [show (b :: rest).length - c = 0 by omega, pieceCount_zero hc] at hi'
        omega
      have h1 : ((b :: rest).take c).length = c := by rw [List.length_take]; omega
      simp only [Function.comp_apply, List.drop_drop, h1, Nat.succ_mul]
      rw [Nat.add_comm c (i * c), Nat.add_assoc, Nat.add_comm c (i * c)]

@[simp] theorem encodeFrame_length (p : Bytes) : (encodeFrame p).length = p.length + 4 := by
  simp [encodeFrame, u16Bytes]

@[simp] theorem segHeader_length (tid : Byte) (total off len : Nat) : (segHeader tid total off len).length = 7 := rfl

end Sys2Proof.Machine
end

