-- ==== Sys2Proof/Laws/Step.lean ====
section
/-! SUPPORT. What one step can do, and the sequencing of commands. -/

namespace Sys2Proof.Machine

open Sys2Proof

/-- Everything a step can do: idle, run the instruction its packet decodes to, or answer the status that rejects it. -/
theorem step_cases (s : State) :
    (s.port = [] ∧ step s = .next s) ∨
    (∃ p rest i, s.port = p :: rest ∧ decode p = .instr i ∧ step s = exec i { s with port := rest }) ∨
    ∃ p rest why, s.port = p :: rest ∧ decode p = .reject why ∧
      step s = .next ({ s with port := rest }.raise why) := by
  rcases s.fetch_eq with ⟨hp, hf⟩ | ⟨p, rest, hp, hf⟩
  · exact .inl ⟨hp, by simp only [step, hf]⟩
  · cases hd : decode p with
    | instr i => exact .inr (.inl ⟨p, rest, i, hp, hd, by simp only [step, hf, hd]⟩)
    | reject why => exact .inr (.inr ⟨p, rest, why, hp, hd, by simp only [step, hf, hd]⟩)

/-- A step on a waiting packet, by what the packet decodes to. -/
theorem step_of_port {s : State} {p : Bytes} {rest : List Bytes} (h : s.port = p :: rest) :
    step s = match decode p with
      | .instr i => exec i { s with port := rest }
      | .reject why => .next ({ s with port := rest }.raise why) := by
  rcases step_cases s with ⟨hp, -⟩ | ⟨p', rest', i, hp, hd, hs⟩ | ⟨p', rest', why, hp, hd, hs⟩
  · rw [h] at hp; cases hp
  · rw [h] at hp; cases hp; rw [hs, hd]
  · rw [h] at hp; cases hp; rw [hs, hd]

@[simp] theorem execAll_nil (s : State) : execAll [] s = .next s := rfl

theorem execAll_cons_next {i : Instr} {l : List Instr} {s t : State} (h : exec i s = .next t) :
    execAll (i :: l) s = execAll l t := by
  simp only [execAll, h]

theorem execAll_append_next {l m : List Instr} {s t : State} (h : execAll l s = .next t) :
    execAll (l ++ m) s = execAll m t := by
  induction l generalizing s with
  | nil =>
    rw [execAll_nil] at h
    cases h
    rfl
  | cons i l ih =>
    cases he : exec i s with
    | next u =>
      rw [execAll_cons_next he] at h
      rw [List.cons_append, execAll_cons_next he]
      exact ih h
    | fault r => simp only [execAll, he] at h; cases h
    | refused r => simp only [execAll, he] at h; cases h

end Sys2Proof.Machine
end

