-- ==== Sys2Proof/Laws/System.lean ====
section
/-! SUPPORT. What REG_READ, FRM_ENCODE and CORE_RESET can do. -/

namespace Sys2Proof.Machine

open Sys2Proof

/-- The addresses of the register map (10_state.md R39) are those `register` answers. -/
theorem register_mapped (s : State) (a : Byte) : a ∈ mappedRegisters ↔ ∃ v, register s a = some v := by
  simp only [mappedRegisters, List.mem_cons, List.not_mem_nil, or_false]
  constructor
  · rintro (rfl | rfl | rfl | rfl | rfl | rfl | rfl | rfl | rfl | rfl | rfl | rfl | rfl) <;> exact ⟨_, rfl⟩
  · rintro ⟨v, hv⟩
    unfold register at hv
    split at hv
    all_goals first
      | (cases hv; done)
      | (rename_i h
         have : a = BitVec.ofNat 8 a.toNat := by simp
         rw [h] at this
         rw [this]
         decide)

theorem register_unmapped (s : State) {a : Byte} (h : a ∉ mappedRegisters) : register s a = none := by
  cases hr : register s a with
  | none => rfl
  | some v => exact absurd ((register_mapped s a).mpr ⟨v, hr⟩) h

/-- Everything REG_READ can do. -/
theorem exec_regRead_cases (a : Byte) (s : State) :
    (∃ v, register s a = some v ∧ exec (.regRead a) s = .next (s.respond (u32Bytes v))) ∨
      (a ∉ mappedRegisters ∧ exec (.regRead a) s = .next (s.raise .invalidArg)) := by
  show (∃ v, _ ∧ execRegRead a s = _) ∨ (_ ∧ execRegRead a s = _)
  cases hr : register s a with
  | some v => exact .inl ⟨v, rfl, by simp only [execRegRead, hr]⟩
  | none =>
    refine .inr ⟨fun h => ?_, by simp only [execRegRead, hr]⟩
    obtain ⟨v, hv⟩ := (register_mapped s a).mp h
    rw [hr] at hv
    cases hv

/-- There are at most 256 active slots, so their number fits the register's nine bits. -/
theorem activeSlots_le (s : State) : s.activeSlots ≤ 256 := by
  have := List.countP_le_length (p := fun x : Slot => x.active) (l := s.slots.toList)
  simpa [State.activeSlots] using this

/-- Everything FRM_ENCODE can do. -/
theorem exec_frmEncode_cases (d : Bytes) (s : State) :
    ((d.length = 0 ∨ s.cfg.maxPayload.toNat < d.length) ∧ exec (.frmEncode d) s = .next (s.raise .invalidArg)) ∨
      ((1 ≤ d.length ∧ d.length ≤ s.cfg.maxPayload.toNat) ∧
        exec (.frmEncode d) s = .next (s.respond (blobBytes (encodeFrame d)))) := by
  by_cases h : d.length = 0 ∨ s.cfg.maxPayload.toNat < d.length
  · exact .inl ⟨h, if_pos h⟩
  · exact .inr ⟨by omega, if_neg h⟩

@[simp] theorem coreReset_cfg (s : State) : (coreReset s).cfg = s.cfg := rfl

@[simp] theorem coreReset_crcAcc (s : State) : (coreReset s).crcAcc = 0xFFFF := rfl

@[simp] theorem coreReset_parser (s : State) : (coreReset s).parser = Parser.reset := rfl

@[simp] theorem coreReset_slot (s : State) (u : Byte) : (coreReset s).slot u = Slot.reset := State.reset_slot u

@[simp] theorem coreReset_counters (s : State) : (coreReset s).counters = Counters.reset := rfl

@[simp] theorem coreReset_port (s : State) : (coreReset s).port = s.port := rfl

@[simp] theorem coreReset_responses (s : State) : (coreReset s).responses = s.responses := rfl

@[simp] theorem coreReset_readouts (s : State) : (coreReset s).readouts = s.readouts := rfl

end Sys2Proof.Machine
end

