-- ==== Sys2Proof/Laws/Commands.lean ====
section
/-! SUPPORT. What any instruction can do: the commands answer and complete, the transitions do not answer. -/

namespace Sys2Proof.Machine

open Sys2Proof

/-- An instruction is a parser transition or a command. -/
theorem transition_or_command (i : Instr) :
    (∃ (u : Transition) (b : Byte), i = u.instr b) ∨ ∀ (u : Transition) (b : Byte), i ≠ u.instr b := by
  by_cases h : ∃ (u : Transition) (b : Byte), i = u.instr b
  · exact .inl h
  · exact .inr fun u b e => h ⟨u, b, e⟩

/-- What a transition that runs leaves alone. -/
theorem exec_transition_frame {u : Transition} {b : Byte} {s t : State} (h : exec (u.instr b) s = .next t) :
    t.cfg = s.cfg ∧ t.crcAcc = s.crcAcc ∧ t.slots = s.slots ∧ t.port = s.port ∧ t.responses = s.responses ∧
      t.readouts = s.readouts := by
  have hb : ∃ c, (u = .syncHit → c = 0xAA) ∧ u.instr b = u.instr c := by
    cases u
    case syncHit => exact ⟨0xAA, fun _ => rfl, rfl⟩
    all_goals exact ⟨b, nofun, rfl⟩
  obtain ⟨c, hc, he⟩ := hb
  rw [he] at h
  by_cases hr : u.Row s c
  · rw [exec_transition hr] at h
    cases h
    simp
  · rw [exec_transition_stuck hc hr] at h
    cases h

/-- A command that answers gives one response: OK and result fields, or INVALID_ARG alone with nothing changed. It
leaves the port and the configuration alone, and no event is held afterwards. -/
theorem exec_command_answers {i : Instr} {s t : State} (hi : ∀ (u : Transition) (b : Byte), i ≠ u.instr b)
    (h : exec i s = .next t) : t.port = s.port ∧ t.event = none ∧ t.cfg = s.cfg ∧
      ∃ r, t.responses = s.responses ++ [r] ∧ (r.head? = some 0x00 ∨ (r = [0x01] ∧ s.SameBlock t)) := by
  cases i
  case prsSyncHit => exact absurd rfl (hi .syncHit 0xAA)
  case prsSyncDrop b => exact absurd rfl (hi .syncDrop b)
  case prsLenBad b => exact absurd rfl (hi .lenBad b)
  case prsLenOk b => exact absurd rfl (hi .lenOk b)
  case prsData b => exact absurd rfl (hi .data b)
  case prsDataLast b => exact absurd rfl (hi .dataLast b)
  case prsCrcHi b => exact absurd rfl (hi .crcHi b)
  case prsCrcMatch b => exact absurd rfl (hi .crcMatch b)
  case prsCrcMismatch b => exact absurd rfl (hi .crcMismatch b)
  case prsFeed b =>
    rcases exec_prsFeed_cases b s with ⟨u, hr, hx⟩ | ⟨-, hx⟩ <;> rw [hx] at h <;> cases h
    exact ⟨by simp, rfl, by simp, _, by simp; rfl, .inl rfl⟩
  case rxByte b =>
    rcases exec_rxByte_cases b s with ⟨u, hr, -, hx⟩ | ⟨hr, hx⟩ | ⟨-, hx⟩ <;> rw [hx] at h <;> cases h
    · exact ⟨by simp, rfl, by simp, _, by simp; rfl, .inl rfl⟩
    · obtain ⟨f1, f2, f3, f4, f5, f6, f7⟩ := rsmAccept_frame (crcMatch b s) s.parser.acc
      exact ⟨f6, rfl, f1, _, by rw [State.respond_responses, f7]; rfl, .inl rfl⟩
  case rsmAccept d =>
    rw [exec_rsmAccept] at h
    cases h
    obtain ⟨f1, f2, f3, f4, f5, f6, f7⟩ := rsmAccept_frame s d
    exact ⟨by simp [f6], rfl, by simp [f1], _, by rw [State.respond_responses, f7], .inl rfl⟩
  case frmEncode d =>
    rcases exec_frmEncode_cases d s with ⟨-, hx⟩ | ⟨-, hx⟩ <;> rw [hx] at h <;> cases h
    · exact ⟨rfl, rfl, rfl, _, rfl, .inr ⟨rfl, rfl, rfl, rfl, rfl, rfl⟩⟩
    · exact ⟨rfl, rfl, rfl, _, rfl, .inl rfl⟩
  case regRead a =>
    rcases exec_regRead_cases a s with ⟨v, -, hx⟩ | ⟨-, hx⟩ <;> rw [hx] at h <;> cases h
    · exact ⟨rfl, rfl, rfl, _, rfl, .inl rfl⟩
    · exact ⟨rfl, rfl, rfl, _, rfl, .inr ⟨rfl, rfl, rfl, rfl, rfl, rfl⟩⟩
  all_goals (cases h; exact ⟨rfl, rfl, rfl, _, rfl, .inl rfl⟩)

/-- Under the parser's invariants every command completes. -/
theorem exec_command_completes {i : Instr} {s : State} (hi : ∀ (u : Transition) (b : Byte), i ≠ u.instr b)
    (hp : s.parser.Inv s.cfg.maxPayload) : ∃ t, exec i s = .next t := by
  cases i
  case prsSyncHit => exact absurd rfl (hi .syncHit 0xAA)
  case prsSyncDrop b => exact absurd rfl (hi .syncDrop b)
  case prsLenBad b => exact absurd rfl (hi .lenBad b)
  case prsLenOk b => exact absurd rfl (hi .lenOk b)
  case prsData b => exact absurd rfl (hi .data b)
  case prsDataLast b => exact absurd rfl (hi .dataLast b)
  case prsCrcHi b => exact absurd rfl (hi .crcHi b)
  case prsCrcMatch b => exact absurd rfl (hi .crcMatch b)
  case prsCrcMismatch b => exact absurd rfl (hi .crcMismatch b)
  case prsFeed b =>
    obtain ⟨t, ht⟩ := row_exists hp b
    exact ⟨_, exec_prsFeed_of_row ht⟩
  case rxByte b =>
    rcases exec_rxByte_cases b s with ⟨u, hr, -, hx⟩ | ⟨hr, hx⟩ | ⟨hn, -⟩
    · exact ⟨_, hx⟩
    · exact ⟨_, hx⟩
    · obtain ⟨t, ht⟩ := row_exists hp b
      exact absurd ht (hn t)
  case frmEncode d => rcases exec_frmEncode_cases d s with ⟨-, hx⟩ | ⟨-, hx⟩ <;> exact ⟨_, hx⟩
  case regRead a => rcases exec_regRead_cases a s with ⟨v, -, hx⟩ | ⟨-, hx⟩ <;> exact ⟨_, hx⟩
  all_goals exact ⟨_, rfl⟩

end Sys2Proof.Machine
end

