-- ==== Sys2Proof/Laws/PerInstr.lean ====
section
/-! SUPPORT. The per-instruction family `PacketLength`: the packet of a well-formed command has the length its own
front asks for (30_encoding.md R81, R84), from 1 to 65540 bytes (R92). A parser transition has a decode key and no
packet. -/

namespace Sys2Proof.Laws.PacketLength

open Sys2Proof

/-- What the family says of an instruction. -/
def Statement (i : Instr) : Prop :=
  ∀ p, i.wellFormed = true → encode i = .packet p →
    packetLength p = some p.length ∧ 1 ≤ p.length ∧ p.length ≤ 65540

/-- The BLOB length field at the front of a BLOB that fits. -/
theorem blobLength_blobBytes {d : Bytes} (h : d.length ≤ 65535) : blobLength (blobBytes d) = some d.length := by
  have : d.length % 65536 = d.length := Nat.mod_eq_of_lt (by omega)
  simp [blobBytes, u16Bytes, blobLength, BitVec.toNat_ofNat, this]

/-- A packet of a fixed-length format. -/
theorem fixed {o : Opcode} {rest : Bytes} {n : Nat} (hn : packetLength (o.byte :: rest) = some n)
    (hl : rest.length + 1 = n) (hb : n ≤ 65540) {p : Bytes} (hp : o.byte :: rest = p) :
    packetLength p = some p.length ∧ 1 ≤ p.length ∧ p.length ≤ 65540 := by
  subst hp
  refine ⟨by rw [hn, ← hl]; rfl, by simp, by rw [List.length_cons]; omega⟩

/-- The length asked for by a packet's front, by its format. -/
theorem packetLength_cons (o : Opcode) (rest : Bytes) : packetLength (o.byte :: rest) =
    match o.format with
    | .f0 => some 1
    | .f1 => some 2
    | .f2 => some 3
    | .fb => (blobLength rest).map (3 + ·)
    | .f1b => (blobLength (rest.drop 1)).map (4 + ·)
    | .f2b => (blobLength (rest.drop 2)).map (5 + ·) := by
  cases o <;> rfl

theorem fits {d : Bytes} (h : blobFits d = true) : d.length ≤ 65535 := of_decide_eq_true h

theorem crcInit (h : U16) : Statement (.crcInit h) := by
  intro p _ h
  injection h with h
  exact fixed (o := .crcInit) (packetLength_cons _ _) rfl (by decide) h

theorem crcStep (b : Byte) : Statement (.crcStep b) := by
  intro p _ h
  injection h with h
  exact fixed (o := .crcStep) (packetLength_cons _ _) rfl (by decide) h

theorem crcCompute (h : U16) (d : Bytes) : Statement (.crcCompute h d) := by
  intro p hw h
  have hd := fits hw
  injection h with h
  refine fixed (o := .crcCompute) (n := 5 + d.length) ?_ ?_ (by omega) h
  · rw [packetLength_cons]
    simp [Opcode.format, u16Bytes, blobLength_blobBytes hd]
  · simp [u16Bytes]; omega

theorem frmEncode (d : Bytes) : Statement (.frmEncode d) := by
  intro p hw h
  have hd := fits hw
  injection h with h
  refine fixed (o := .frmEncode) (n := 3 + d.length) ?_ ?_ (by omega) h
  · rw [packetLength_cons]
    simp [Opcode.format, blobLength_blobBytes hd]
  · simp; omega

theorem prsFeed (b : Byte) : Statement (.prsFeed b) := by
  intro p _ h
  injection h with h
  exact fixed (o := .prsFeed) (packetLength_cons _ _) rfl (by decide) h

theorem prsReset : Statement .prsReset := by
  intro p _ h
  injection h with h
  exact fixed (o := .prsReset) (packetLength_cons _ _) rfl (by decide) h

theorem rxByte (b : Byte) : Statement (.rxByte b) := by
  intro p _ h
  injection h with h
  exact fixed (o := .rxByte) (packetLength_cons _ _) rfl (by decide) h

theorem segSplit (tid : Byte) (d : Bytes) : Statement (.segSplit tid d) := by
  intro p hw h
  have hd := fits hw
  injection h with h
  refine fixed (o := .segSplit) (n := 4 + d.length) ?_ ?_ (by omega) h
  · rw [packetLength_cons]
    simp [Opcode.format, blobLength_blobBytes hd]
  · simp; omega

theorem segSplitRaw (d : Bytes) : Statement (.segSplitRaw d) := by
  intro p hw h
  have hd := fits hw
  injection h with h
  refine fixed (o := .segSplitRaw) (n := 3 + d.length) ?_ ?_ (by omega) h
  · rw [packetLength_cons]
    simp [Opcode.format, blobLength_blobBytes hd]
  · simp; omega

theorem txSegmented (tid : Byte) (d : Bytes) : Statement (.txSegmented tid d) := by
  intro p hw h
  have hd := fits hw
  injection h with h
  refine fixed (o := .txSegmented) (n := 4 + d.length) ?_ ?_ (by omega) h
  · rw [packetLength_cons]
    simp [Opcode.format, blobLength_blobBytes hd]
  · simp; omega

theorem txRaw (d : Bytes) : Statement (.txRaw d) := by
  intro p hw h
  have hd := fits hw
  injection h with h
  refine fixed (o := .txRaw) (n := 3 + d.length) ?_ ?_ (by omega) h
  · rw [packetLength_cons]
    simp [Opcode.format, blobLength_blobBytes hd]
  · simp; omega

theorem rsmAccept (d : Bytes) : Statement (.rsmAccept d) := by
  intro p hw h
  have hd := fits hw
  injection h with h
  refine fixed (o := .rsmAccept) (n := 3 + d.length) ?_ ?_ (by omega) h
  · rw [packetLength_cons]
    simp [Opcode.format, blobLength_blobBytes hd]
  · simp; omega

theorem rsmStatus (tid : Byte) : Statement (.rsmStatus tid) := by
  intro p _ h
  injection h with h
  exact fixed (o := .rsmStatus) (packetLength_cons _ _) rfl (by decide) h

theorem rsmClear : Statement .rsmClear := by
  intro p _ h
  injection h with h
  exact fixed (o := .rsmClear) (packetLength_cons _ _) rfl (by decide) h

theorem regRead (a : Byte) : Statement (.regRead a) := by
  intro p _ h
  injection h with h
  exact fixed (o := .regRead) (packetLength_cons _ _) rfl (by decide) h

theorem coreReset : Statement .coreReset := by
  intro p _ h
  injection h with h
  exact fixed (o := .coreReset) (packetLength_cons _ _) rfl (by decide) h

theorem prsSyncHit : Statement .prsSyncHit := fun _ _ h => Code.noConfusion h

theorem prsSyncDrop (b : Byte) : Statement (.prsSyncDrop b) := fun _ _ h => Code.noConfusion h

theorem prsLenBad (b : Byte) : Statement (.prsLenBad b) := fun _ _ h => Code.noConfusion h

theorem prsLenOk (b : Byte) : Statement (.prsLenOk b) := fun _ _ h => Code.noConfusion h

theorem prsData (b : Byte) : Statement (.prsData b) := fun _ _ h => Code.noConfusion h

theorem prsDataLast (b : Byte) : Statement (.prsDataLast b) := fun _ _ h => Code.noConfusion h

theorem prsCrcHi (b : Byte) : Statement (.prsCrcHi b) := fun _ _ h => Code.noConfusion h

theorem prsCrcMatch (b : Byte) : Statement (.prsCrcMatch b) := fun _ _ h => Code.noConfusion h

theorem prsCrcMismatch (b : Byte) : Statement (.prsCrcMismatch b) := fun _ _ h => Code.noConfusion h

end Sys2Proof.Laws.PacketLength
end

