-- ==== Sys2Proof/Laws/Formats.lean ====
section
/-! SUPPORT. What the operand readers of the six packet formats accept, when a packet decodes at all, and that each
command's decoder has its format. -/

namespace Sys2Proof.Machine

open Sys2Proof

/-! ### What each operand reader accepts -/

theorem operands0_eq_instr {p : Bytes} {f i : Instr} (h : operands0 p f = .instr i) : p = [] ∧ i = f := by
  unfold operands0 at h
  split at h
  · cases h; exact ⟨rfl, rfl⟩
  · cases h

theorem operands1_eq_instr {p : Bytes} {f : Byte → Instr} {i : Instr} (h : operands1 p f = .instr i) :
    ∃ a, p = [a] ∧ i = f a := by
  unfold operands1 at h
  split at h
  · cases h; exact ⟨_, rfl, rfl⟩
  · cases h

theorem operands2_eq_instr {p : Bytes} {f : U16 → Instr} {i : Instr} (h : operands2 p f = .instr i) :
    ∃ a, p = u16Bytes a ∧ i = f a := by
  unfold operands2 at h
  split at h
  · cases h; exact ⟨_, (u16Bytes_be16 _ _).symm, rfl⟩
  · cases h

theorem operandsB_eq_instr {p : Bytes} {f : Bytes → Instr} {i : Instr} (h : operandsB p f = .instr i) :
    ∃ d, p = blobBytes d ∧ d.length ≤ 65535 ∧ i = f d := by
  unfold operandsB at h
  split at h
  · next d hd => cases h; exact ⟨d, (blobOf_eq_some hd).1, (blobOf_eq_some hd).2, rfl⟩
  · cases h

theorem operands1B_eq_instr {p : Bytes} {f : Byte → Bytes → Instr} {i : Instr} (h : operands1B p f = .instr i) :
    ∃ a d, p = a :: blobBytes d ∧ d.length ≤ 65535 ∧ i = f a d := by
  unfold operands1B at h
  split at h
  · obtain ⟨d, rfl, h2, h3⟩ := operandsB_eq_instr h
    exact ⟨_, d, rfl, h2, h3⟩
  · cases h

theorem operands2B_eq_instr {p : Bytes} {f : U16 → Bytes → Instr} {i : Instr} (h : operands2B p f = .instr i) :
    ∃ a d, p = u16Bytes a ++ blobBytes d ∧ d.length ≤ 65535 ∧ i = f a d := by
  unfold operands2B at h
  split at h
  · obtain ⟨d, rfl, h2, h3⟩ := operandsB_eq_instr h
    exact ⟨_, d, by rw [u16Bytes_be16]; rfl, h2, h3⟩
  · cases h

/-! ### The assigned opcodes -/

theorem Opcode.ofByte_eq_none {op : Byte} (h : op ∉ assignedOpcodes) : Opcode.ofByte op = none := by
  rw [Opcode.ofByte, List.find?_eq_none]
  intro o _ ho
  apply h
  have : o.byte = op := by simpa using ho
  rw [← this]
  cases o <;> decide

theorem Opcode.ofByte_assigned {op : Byte} (h : op ∈ assignedOpcodes) : ∃ o, Opcode.ofByte op = some o := by
  simp only [assignedOpcodes, List.mem_cons, List.not_mem_nil, or_false] at h
  rcases h with rfl | rfl | rfl | rfl | rfl | rfl | rfl | rfl | rfl | rfl | rfl | rfl | rfl | rfl | rfl | rfl <;>
    exact ⟨_, rfl⟩

/-! ### When a packet decodes -/

/-- A BLOB reader accepts exactly when the length field is the number of bytes behind it. -/
theorem operandsB_by_length (p : Bytes) (f : Bytes → Instr) :
    if blobLength p = some (p.length - 2) then ∃ d, p.length = d.length + 2 ∧ operandsB p f = .instr (f d)
    else operandsB p f = .reject .malformed := by
  match p with
  | [] => simp [blobLength, operandsB, blobOf]
  | [_] => simp [blobLength, operandsB, blobOf]
  | a :: b :: d =>
    simp only [blobLength, operandsB, blobOf, List.length_cons]
    by_cases h : d.length = (be16 a b).toNat
    · simp [h]; exact ⟨d, h.symm, rfl⟩
    · simp [h, Ne.symm h]

/-- A packet with an assigned opcode decodes exactly when its length is the one its front asks for (30_encoding.md R81,
R84), and is malformed otherwise. -/
theorem decode_by_length (o : Opcode) (rest : Bytes) :
    if packetLength (o.byte :: rest) = some (rest.length + 1) then ∃ i, decode (o.byte :: rest) = .instr i
    else decode (o.byte :: rest) = .reject .malformed := by
  rw [decode_cons (Opcode.ofByte_byte o)]
  have hB : ∀ (k : Nat) (p : Bytes) (f : Bytes → Instr) , (blobLength p).map (k + ·) = some (p.length + (k - 2)) → 2 ≤ k → 
      ∃ i, operandsB p f = .instr i := by
    intro k p f h hk
    have h1 := operandsB_by_length p f
    have : blobLength p = some (p.length - 2) := by
      cases hb : blobLength p with
      | none => rw [hb] at h; cases h
      | some n =>
        rw [hb] at h; simp at h
        congr 1; omega
    rw [if_pos this] at h1
    obtain ⟨d, -, h2⟩ := h1
    exact ⟨_, h2⟩
  have hB' : ∀ (k : Nat) (p : Bytes) (f : Bytes → Instr) , ¬ ((blobLength p).map (k + ·) = some (p.length + (k - 2))) → 2 ≤ k → 
      operandsB p f = .reject .malformed := by
    intro k p f h hk
    have h1 := operandsB_by_length p f
    have : ¬ blobLength p = some (p.length - 2) := by
      intro e
      have hl : 2 ≤ p.length := by
        match p with
        | [] => cases e
        | [_] => cases e
        | _ :: _ :: _ => simp
      rw [e] at h; simp at h; omega
    rwa [if_neg this] at h1
  split <;> rename_i h <;> rw [Laws.PacketLength.packetLength_cons] at h <;> cases o <;>
    simp only [Opcode.format, Opcode.operands] at h ⊢
  all_goals first
    | exact hB 3 rest _ (by rw [h]) (by decide)
    | exact hB' 3 rest _ h (by decide)
    | (match rest, h with
       | [], _ => exact ⟨_, rfl⟩
       | _ :: _ , h => simp at h)
    | (match rest, h with
       | [_], _ => exact ⟨_, rfl⟩
       | [], h => simp at h
       | _ :: _ :: _ , h => simp at h)
    | (match rest, h with
       | [_,_], _ => exact ⟨_, rfl⟩
       | [], h => simp at h
       | [_], h => simp at h
       | _ :: _ :: _ :: _ , h => simp at h)
    | (match rest, h with
       | [], h => exact absurd rfl h
       | _ :: _ , h => rfl)
    | (match rest, h with
       | [_], h => exact absurd rfl h
       | [], h => rfl
       | _ :: _ :: _ , h => rfl)
    | (match rest, h with
       | [_,_], h => exact absurd rfl h
       | [], h => rfl
       | [_], h => rfl
       | _ :: _ :: _ :: _ , h => rfl)
    | (match rest, h with
       | [], h => first | rfl | cases h
       | a :: rest, h => first | exact hB 4 rest _ (by simpa using h) (by decide) | exact hB' 4 rest _ (by simpa using h) (by decide))
    | (match rest, h with
       | [], h => first | rfl | cases h
       | [_], h => first | rfl | cases h
       | a :: b :: rest, h => first | exact hB 5 rest _ (by simpa using h) (by decide) | exact hB' 5 rest _ (by simpa using h) (by decide))

/-! ### The formats of R82, by the operand reader a command uses -/

theorem FormatF0.of_operands (o : Opcode) {i : Instr} (h : ∀ p, o.operands p = operands0 p i) : FormatF0 o.byte i := by
  refine ⟨?_, fun rest hr => ?_⟩ <;> rw [decode_cons (Opcode.ofByte_byte o), h]
  · rfl
  · match rest, hr with
    | [], h => exact absurd rfl h
    | _ :: _, _ => rfl

theorem FormatF1.of_operands (o : Opcode) {i : Byte → Instr} (h : ∀ p, o.operands p = operands1 p i) :
    FormatF1 o.byte i := by
  refine ⟨fun a => ?_, fun rest hr => ?_⟩ <;> rw [decode_cons (Opcode.ofByte_byte o), h]
  · rfl
  · match rest, hr with
    | [], _ => rfl
    | [_], h => exact absurd rfl h
    | _ :: _ :: _, _ => rfl

theorem FormatF2.of_operands (o : Opcode) {i : U16 → Instr} (h : ∀ p, o.operands p = operands2 p i) :
    FormatF2 o.byte i := by
  refine ⟨fun hi lo => ?_, fun rest hr => ?_⟩ <;> rw [decode_cons (Opcode.ofByte_byte o), h]
  · rfl
  · match rest, hr with
    | [], _ => rfl
    | [_], _ => rfl
    | [_, _], h => exact absurd rfl h
    | _ :: _ :: _ :: _, _ => rfl

theorem FormatFB.of_operands (o : Opcode) {i : Bytes → Instr} (h : ∀ p, o.operands p = operandsB p i) :
    FormatFB o.byte i := by
  refine ⟨fun hi lo d => ?_, fun rest hr => ?_⟩ <;> rw [decode_cons (Opcode.ofByte_byte o), h, operandsB]
  · rw [blobOf_cons]
    by_cases hd : d.length = hi.toNat * 256 + lo.toNat <;> simp [hd]
  · rw [blobOf_short hr]

theorem FormatF1B.of_operands (o : Opcode) {i : Byte → Bytes → Instr} (h : ∀ p, o.operands p = operands1B p i) :
    FormatF1B o.byte i := by
  refine ⟨fun a hi lo d => ?_, fun rest hr => ?_⟩ <;> rw [decode_cons (Opcode.ofByte_byte o), h]
  · rw [operands1B, operandsB, blobOf_cons]
    by_cases hd : d.length = hi.toNat * 256 + lo.toNat <;> simp [hd]
  · match rest, hr with
    | [], _ => rfl
    | [_], _ => rfl
    | [_, _], _ => rfl

theorem FormatF2B.of_operands (o : Opcode) {i : U16 → Bytes → Instr} (h : ∀ p, o.operands p = operands2B p i) :
    FormatF2B o.byte i := by
  refine ⟨fun a b hi lo d => ?_, fun rest hr => ?_⟩ <;> rw [decode_cons (Opcode.ofByte_byte o), h]
  · rw [operands2B, operandsB, blobOf_cons]
    by_cases hd : d.length = hi.toNat * 256 + lo.toNat <;> simp [hd]
  · match rest, hr with
    | [], _ => rfl
    | [_], _ => rfl
    | [_, _], _ => rfl
    | [_, _, _], _ => rfl

end Sys2Proof.Machine
end

