-- ==== Sys2Proof/Tests/Slice0.lean ====
section
/-! SUPPORT. Tests whose expected results come from spec/95_test_vectors.md or from the encodings of 30_encoding.md, and
a witness for the hypotheses of every statement that has some. -/

namespace Sys2Proof.Tests

open Sys2Proof Sys2Proof.Machine

-- One test after the other: each kernel evaluation would otherwise hold a thread and its stack.
set_option Elab.async false

/-! ### Helpers -/

/-- The reset state with `p` waiting. -/
def waiting (p : Bytes) : State := { State.reset with port := [p] }

/-- The reset state with these parser fields. -/
def parserAt (p : Parser) : State := { State.reset with parser := p }

/-- The reset state in another configuration. -/
def configured (m : Byte) (policy : MismatchPolicy) (mode : CompletionMode) : State :=
  { State.reset with cfg := { maxPayload := m, policy := policy, mode := mode } }

/-- The state one step after `p` was delivered to `s`, if the step gives one. -/
def after (s : State) (p : Bytes) : Option State :=
  match step { s with port := [p] } with
  | .next t => some t
  | _ => none

/-- The response to `p`. -/
def reply (s : State) (p : Bytes) : Option Bytes := (after s p).bind fun t => t.responses.getLast?

/-- The parser states of V-PRS. -/
def inLen : Parser := { Parser.reset with state := .len }
def inData (n : Byte) (crc : U16) (acc : Bytes) : Parser :=
  { state := .data, crc := crc, len := n, acc := acc, crcHi := 0 }
def inCrcHi : Parser := { state := .crcHi, crc := 0xDDF0, len := 2, acc := [0x68, 0x69], crcHi := 0 }
def inCrcLo : Parser := { inCrcHi with state := .crcLo, crcHi := 0xDD }

/-- A slot of total 4 with `AA BB` at offset 0, as the two completion modes hold it. -/
def half (received : BitVec 17) : Slot :=
  { active := true, total := 4, buf := [(0, 0xAA), (1, 0xBB)], received := received }

/-! ### Well-formedness -/

theorem test_wellFormed_refuses_long_blobs : blobFits (List.replicate 65536 0) = false := by
  simp only [blobFits, List.length_replicate]
  decide

theorem test_wellFormed_accepts_longest_blob : blobFits (List.replicate 65535 0) = true := by
  simp only [blobFits, List.length_replicate]
  decide

theorem test_wellFormed_checks_every_blob (h : U16) (tid : Byte) :
    (Instr.crcCompute h (List.replicate 65536 0)).wellFormed = false ∧
    (Instr.frmEncode (List.replicate 65536 0)).wellFormed = false ∧
    (Instr.segSplit tid (List.replicate 65536 0)).wellFormed = false ∧
    (Instr.segSplitRaw (List.replicate 65536 0)).wellFormed = false ∧
    (Instr.txSegmented tid (List.replicate 65536 0)).wellFormed = false ∧
    (Instr.txRaw (List.replicate 65536 0)).wellFormed = false ∧
    (Instr.rsmAccept (List.replicate 65536 0)).wellFormed = false :=
  ⟨test_wellFormed_refuses_long_blobs, test_wellFormed_refuses_long_blobs, test_wellFormed_refuses_long_blobs,
   test_wellFormed_refuses_long_blobs, test_wellFormed_refuses_long_blobs, test_wellFormed_refuses_long_blobs,
   test_wellFormed_refuses_long_blobs⟩

theorem test_wellFormed_refuses_bytes_outside_their_row :
    (Instr.prsSyncDrop 0xAA).wellFormed = false ∧ (Instr.prsLenBad 0x05).wellFormed = false ∧
    (Instr.prsLenBad 0x08).wellFormed = false ∧ (Instr.prsLenOk 0x00).wellFormed = false := by decide

theorem test_wellFormed_accepts :
    (Instr.crcCompute 0xFFFF [0x61]).wellFormed = true ∧ (Instr.prsLenBad 0x00).wellFormed = true ∧
    (Instr.prsLenBad 0x09).wellFormed = true ∧ (Instr.prsLenOk 0x01).wellFormed = true := by decide

/-! ### Decoding: words written out from R82 -/

theorem test_decode_crc : decode [0x01, 0x12, 0x34] = .instr (.crcInit 0x1234) ∧
    decode [0x02, 0xA5] = .instr (.crcStep 0xA5) ∧
    decode [0x03, 0xFF, 0xFF, 0x00, 0x02, 0x61, 0x62] = .instr (.crcCompute 0xFFFF [0x61, 0x62]) := by decide

theorem test_decode_frame : decode [0x10, 0x00, 0x01, 0x61] = .instr (.frmEncode [0x61]) := by decide

theorem test_decode_parser : decode [0x20, 0xAA] = .instr (.prsFeed 0xAA) ∧ decode [0x21] = .instr .prsReset ∧
    decode [0x22, 0x65] = .instr (.rxByte 0x65) := by decide

theorem test_decode_segment : decode [0x30, 0x07, 0x00, 0x01, 0x11] = .instr (.segSplit 0x07 [0x11]) ∧
    decode [0x31, 0x00, 0x01, 0x11] = .instr (.segSplitRaw [0x11]) ∧
    decode [0x32, 0x07, 0x00, 0x01, 0x11] = .instr (.txSegmented 0x07 [0x11]) ∧
    decode [0x33, 0x00, 0x01, 0x11] = .instr (.txRaw [0x11]) := by decide

theorem test_decode_reassembler : decode [0x40, 0x00, 0x01, 0x61] = .instr (.rsmAccept [0x61]) ∧
    decode [0x41, 0x05] = .instr (.rsmStatus 0x05) ∧ decode [0x42] = .instr .rsmClear := by decide

theorem test_decode_system : decode [0x50, 0x04] = .instr (.regRead 0x04) ∧ decode [0x60] = .instr .coreReset := by
  decide

/-- V-CMD: the packets answered with MALFORMED and ILLEGAL_OPCODE. -/
theorem test_decode_rejects : decode [] = .reject .malformed ∧ decode [0x00] = .reject .illegalOpcode ∧
    decode [0xFF, 0x01, 0x02] = .reject .illegalOpcode ∧ decode [0x04, 0x00] = .reject .illegalOpcode ∧
    decode [0x01, 0xFF] = .reject .malformed ∧ decode [0x01, 0xFF, 0xFF, 0x00] = .reject .malformed ∧
    decode [0x03, 0xFF, 0xFF, 0x00, 0x02, 0x61] = .reject .malformed ∧ decode [0x10, 0x00] = .reject .malformed ∧
    decode [0x10, 0x00, 0x01] = .reject .malformed ∧ decode [0x21, 0x00] = .reject .malformed ∧
    decode [0x30, 0x07, 0x00, 0x04, 0x01, 0x02, 0x03] = .reject .malformed ∧
    decode [0x60, 0x60] = .reject .malformed := by decide

/-- The keys of R93 under a parser that meets each row's condition. -/
theorem test_decode_keys :
    decodeKey State.reset.keyContext 0 0xAA = some .prsSyncHit ∧
    decodeKey State.reset.keyContext 0 0x13 = some (.prsSyncDrop 0x13) ∧
    decodeKey State.reset.keyContext 1 0x41 = some (.prsLenBad 0x41) ∧
    decodeKey State.reset.keyContext 1 0x40 = some (.prsLenOk 0x40) ∧
    decodeKey (parserAt (inData 2 0xC1B2 [])).keyContext 2 0x68 = some (.prsData 0x68) ∧
    decodeKey (parserAt (inData 2 0x96C3 [0x68])).keyContext 2 0x69 = some (.prsDataLast 0x69) ∧
    decodeKey (parserAt inCrcHi).keyContext 3 0xDD = some (.prsCrcHi 0xDD) ∧
    decodeKey (parserAt inCrcLo).keyContext 4 0xF0 = some (.prsCrcMatch 0xF0) ∧
    decodeKey (parserAt inCrcLo).keyContext 4 0xF1 = some (.prsCrcMismatch 0xF1) ∧
    decodeKey State.reset.keyContext 5 0x00 = none ∧ decodeKey State.reset.keyContext 7 0xFF = none := by
  decide +kernel

/-- The words of the opcode table: a command's bits are its opcode byte, a key's are the state code and the byte. -/
theorem test_table_words : decodeTableWord 8 0x01 = some (.crcInit 0) ∧
    decodeTableWord 8 0x03 = some (.crcCompute 0 []) ∧ decodeTableWord 8 0x60 = some .coreReset ∧
    decodeTableWord 8 0xFF = none ∧ decodeTableWord 16 0x0AA = some .prsSyncHit ∧
    decodeTableWord 16 0x000 = some (.prsSyncDrop 0) ∧ decodeTableWord 16 0x100 = some (.prsLenBad 0) ∧
    decodeTableWord 16 0x101 = some (.prsLenOk 1) ∧ decodeTableWord 16 0x200 = some (.prsData 0) ∧
    decodeTableWord 16 0x300 = some (.prsCrcHi 0) ∧ decodeTableWord 16 0x400 = some (.prsCrcMatch 0) ∧
    decodeTableWord 16 0x401 = some (.prsCrcMismatch 1) ∧ decodeTableWord 16 0x600 = none := by decide

theorem test_encode_longest_packet (h : U16) : (encode (.crcCompute h (List.replicate 65535 0))) =
    .packet ([0x03, hi8 h, lo8 h, 0xFF, 0xFF] ++ List.replicate 65535 0) := by
  have hl : hi8 65535#16 = 0xFF ∧ lo8 65535#16 = 0xFF := by decide
  simp only [encode, blobBytes, List.length_replicate, u16Bytes, List.cons_append, List.nil_append, hl.1, hl.2]

/-! ### The CRC Engine (V-CRC, V-CMD) -/

theorem test_crcStep_vectors : crcStep 0xFFFF 0x00 = 0xE1F0 ∧ crcStep 0xFFFF 0xAA = 0xF550 ∧
    crcStep 0xFFFF 0xFF = 0xFF00 ∧ crcStep 0x8000 0x00 = 0x9188 ∧
    crcStep 0x1D0F 0x00 = 0xCC9C ∧ crcStep 0xABCD 0xAB = 0xCD00 := by decide

theorem test_compute_check_value :
    compute [0x31, 0x32, 0x33, 0x34, 0x35, 0x36, 0x37, 0x38, 0x39] 0xFFFF = 0x29B1 ∧
    compute [0x01, 0x61] 0xFFFF = 0x52B9 ∧ compute [] 0x1234 = 0x1234 := by decide +kernel

theorem test_crcInit : (after State.reset [0x01, 0x00, 0x00]).map (fun t => (t.crcAcc, t.responses)) =
    some (0x0000, [[0x00]]) := by decide +kernel

theorem test_crcStep : (after State.reset [0x02, 0x31]).map (fun t => (t.crcAcc, t.responses)) =
    some (0xC782, [[0x00, 0xC7, 0x82]]) := by decide +kernel

theorem test_crcCompute :
    (after State.reset [0x03, 0xFF, 0xFF, 0x00, 0x09, 0x31, 0x32, 0x33, 0x34, 0x35, 0x36, 0x37, 0x38, 0x39]).map
      (fun t => (t.crcAcc, t.responses)) = some (0xFFFF, [[0x00, 0x29, 0xB1]]) := by decide +kernel

theorem test_crcCompute_empty : reply State.reset [0x03, 0x12, 0x34, 0x00, 0x00] = some [0x00, 0x12, 0x34] := by
  decide +kernel

/-! ### The Frame Codec (V-ENC) -/

theorem test_frmEncode : reply State.reset [0x10, 0x00, 0x02, 0x68, 0x69] =
    some [0x00, 0x00, 0x06, 0xAA, 0x02, 0x68, 0x69, 0xDD, 0xF0] := by decide +kernel

theorem test_frmEncode_limits : reply State.reset [0x10, 0x00, 0x00] = some [0x01] ∧
    reply State.reset ([0x10, 0x00, 0x41] ++ List.replicate 65 0) = some [0x01] ∧
    reply State.reset ([0x10, 0x00, 0x40] ++ List.replicate 64 0) =
      some ([0x00, 0x00, 0x44, 0xAA, 0x40] ++ List.replicate 64 0 ++ [0xAE, 0x84]) := by decide +kernel

/-! ### The Stream Parser (V-PRS): each transition by itself, then by the byte that PRS_FEED decodes -/

/-- What V-PRS lists: the parser, the counters and the event. -/
def view (r : Result) : Option (Parser × Counters × Option FrameEvent) :=
  match r with
  | .next t => some (t.parser, t.counters, t.event)
  | _ => none

theorem test_prsSyncDrop : view (exec (.prsSyncDrop 0x13) State.reset) =
    some (Parser.reset, { Counters.reset with syncDrop := 1 }, none) := by decide +kernel

theorem test_prsSyncHit : view (exec .prsSyncHit State.reset) = some (inLen, Counters.reset, none) := by
  decide +kernel

theorem test_prsLenBad : view (exec (.prsLenBad 0x41) (parserAt inLen)) =
    some (Parser.reset, { Counters.reset with lenErr := 1 }, none) := by decide +kernel

theorem test_prsLenOk : view (exec (.prsLenOk 0x40) (parserAt inLen)) =
    some (inData 0x40 0xA934 [], Counters.reset, none) := by decide +kernel

theorem test_prsData : view (exec (.prsData 0x68) (parserAt (inData 2 0xC1B2 []))) =
    some (inData 2 0x96C3 [0x68], Counters.reset, none) := by decide +kernel

theorem test_prsDataLast : view (exec (.prsDataLast 0x69) (parserAt (inData 2 0x96C3 [0x68]))) =
    some (inCrcHi, Counters.reset, none) := by decide +kernel

theorem test_prsCrcHi : view (exec (.prsCrcHi 0xDD) (parserAt inCrcHi)) =
    some (inCrcLo, Counters.reset, none) := by decide +kernel

theorem test_prsCrcMatch : view (exec (.prsCrcMatch 0xF0) (parserAt inCrcLo)) =
    some (Parser.reset, { Counters.reset with framesOk := 1 },
      some { data := [0x68, 0x69], raw := [0xAA, 0x02, 0x68, 0x69, 0xDD, 0xF0] }) := by decide +kernel

theorem test_prsCrcMismatch : view (exec (.prsCrcMismatch 0xF1) (parserAt inCrcLo)) =
    some (Parser.reset, { Counters.reset with crcErr := 1 }, none) := by decide +kernel

theorem test_transition_stops_outside_its_row : exec (.prsData 0x69) (parserAt (inData 2 0x96C3 [0x68])) =
    .fault .noTransition := rfl

theorem test_prsFeed_event : reply (parserAt inCrcLo) [0x20, 0xF0] =
    some [0x00, 0x01, 0x00, 0x02, 0x68, 0x69, 0x00, 0x06, 0xAA, 0x02, 0x68, 0x69, 0xDD, 0xF0] := by decide +kernel

/-- 0xAA in LEN is a bad length at MAX_PAYLOAD = 64, and is consumed. -/
theorem test_prsFeed_sync_in_len : (after (parserAt inLen) [0x20, 0xAA]).map (fun t => (t.parser, t.counters)) =
    some (Parser.reset, { Counters.reset with lenErr := 1 }) := by decide +kernel

theorem test_prsReset : (after (parserAt (inData 5 0x1234 [0x01])) [0x21]).map (fun t => (t.parser, t.responses)) =
    some (Parser.reset, [[0x00]]) := by decide +kernel

/-! ### The Segment Codec (R170 to R173 examples, V-SEG) -/

theorem test_segSplit : reply State.reset [0x30, 0x07, 0x00, 0x03, 0x11, 0x22, 0x33] =
    some [0x00, 0x00, 0x01, 0x00, 0x0A, 0x01, 0x07, 0x00, 0x03, 0x00, 0x00, 0x03, 0x11, 0x22, 0x33] := by
  decide +kernel

/-- The source's chunking example: 130 bytes give chunks 57, 57, 16 at 0, 57, 114 (R175). -/
theorem test_split_130 : (split Config.reference 0x01 (List.replicate 130 0)).map (fun p => (p.length, p.take 7)) =
    [(64, [0x01, 0x01, 0x00, 0x82, 0x00, 0x00, 0x39]), (64, [0x01, 0x01, 0x00, 0x82, 0x00, 0x39, 0x39]),
     (23, [0x01, 0x01, 0x00, 0x82, 0x00, 0x72, 0x10])] := by decide +kernel

theorem test_segSplitRaw : (splitRaw Config.reference (List.replicate 130 0)).map List.length = [64, 64, 2] ∧
    reply State.reset [0x31, 0x00, 0x00] = some [0x00, 0x00, 0x00] := by decide +kernel

theorem test_txSegmented : reply State.reset [0x32, 0x07, 0x00, 0x03, 0x11, 0x22, 0x33] =
    some [0x00, 0x00, 0x01, 0x00, 0x0E, 0xAA, 0x0A, 0x01, 0x07, 0x00, 0x03, 0x00, 0x00, 0x03, 0x11, 0x22, 0x33, 0x59,
      0x65] := by decide +kernel

theorem test_txRaw : reply State.reset [0x33, 0x00, 0x02, 0x68, 0x69] =
    some [0x00, 0x00, 0x01, 0x00, 0x06, 0xAA, 0x02, 0x68, 0x69, 0xDD, 0xF0] := by decide +kernel

/-! ### The Segment Reassembler (V-RSM) -/

/-- A7, second segment: the first was `CC DD` at offset 2. -/
theorem test_rsmAccept_out_of_order :
    reply (State.reset.setSlot 5 { active := true, total := 4, buf := [(2, 0xCC), (3, 0xDD)], received := 2 })
      [0x40, 0x00, 0x09, 0x01, 0x05, 0x00, 0x04, 0x00, 0x00, 0x02, 0xAA, 0xBB] =
    some [0x00, 0x02, 0x05, 0x00, 0x04, 0xAA, 0xBB, 0xCC, 0xDD] := by decide +kernel

/-- A22: the largest total and offset. -/
theorem test_rsmAccept_largest :
    (after State.reset [0x40, 0x00, 0x08, 0x01, 0x05, 0xFF, 0xFF, 0xFF, 0xFE, 0x01, 0xEE]).map
      (fun t => (t.slot 5, t.responses)) =
    some ({ active := true, total := 0xFFFF, buf := [(65534, 0xEE)], received := 1 },
      [[0x00, 0x01, 0x05, 0x00, 0x00, 0x00, 0x01]]) := by decide +kernel

/-- A8: the duplicate completes the transfer under COUNTER, with free draws in cells 2 and 3. -/
theorem test_rsmAccept_duplicate_counter : reply (State.reset.setSlot 5 (half 2))
      [0x40, 0x00, 0x09, 0x01, 0x05, 0x00, 0x04, 0x00, 0x00, 0x02, 0xAA, 0xBB] =
    some [0x00, 0x02, 0x05, 0x00, 0x04, 0xAA, 0xBB, Config.hole 0 2, Config.hole 0 3] := by rfl

/-- A9: the same under COVERAGE reports the same count again. -/
theorem test_rsmAccept_duplicate_coverage : reply ((configured 64 .reject .coverage).setSlot 5 (half 0))
      [0x40, 0x00, 0x09, 0x01, 0x05, 0x00, 0x04, 0x00, 0x00, 0x02, 0xAA, 0xBB] =
    some [0x00, 0x01, 0x05, 0x00, 0x00, 0x00, 0x02] := by decide +kernel

/-- A12, second segment, and A13, second segment: a total mismatch under the two policies. -/
theorem test_rsmAccept_mismatch :
    reply (State.reset.setSlot 5 (half 2)) [0x40, 0x00, 0x09, 0x01, 0x05, 0x00, 0x06, 0x00, 0x00, 0x02, 0x11, 0x22] =
      some [0x00, 0x00] ∧
    reply ((configured 64 .restart .counter).setSlot 5 (half 2))
        [0x40, 0x00, 0x09, 0x01, 0x05, 0x00, 0x03, 0x00, 0x00, 0x02, 0x11, 0x22] =
      some [0x00, 0x01, 0x05, 0x00, 0x00, 0x00, 0x02] := by decide +kernel

/-- A1 to A5 and A19. -/
theorem test_rsmParse_refuses : rsmParse [0x01, 0x05, 0x00, 0x04, 0x00] = none ∧
    rsmParse [0x02, 0x05, 0x00, 0x02, 0x00, 0x00, 0x02, 0xAA, 0xBB] = none ∧
    rsmParse [0x01, 0x05, 0x00, 0x02, 0x00, 0x00, 0x02, 0xAA] = none ∧
    rsmParse [0x01, 0x05, 0x00, 0x02, 0x00, 0x01, 0x02, 0xAA, 0xBB] = none ∧ rsmParse [0x61] = none ∧
    rsmParse [0x01, 0x05, 0x00, 0x02, 0x00, 0x00, 0x02, 0xAA, 0xBB, 0x00] = none := by decide

theorem test_rsmStatus : reply (State.reset.setSlot 5 (half 2)) [0x41, 0x05] =
    some [0x00, 0x01, 0x00, 0x04, 0x00, 0x00, 0x00, 0x02] := by decide +kernel

theorem test_rsmClear : (after (State.reset.setSlot 5 (half 2)) [0x42]).map (fun t => (t.slot 5, t.responses)) =
    some (Slot.reset, [[0x00]]) := by decide +kernel

/-- The last byte of the frame of R200's example. -/
theorem test_rxByte_complete :
    reply (parserAt ⟨.crcLo, 0x5965, 0x0A, [0x01, 0x07, 0x00, 0x03, 0x00, 0x00, 0x03, 0x11, 0x22, 0x33], 0x59⟩)
        [0x22, 0x65] =
    some [0x00, 0x01, 0x00, 0x0A, 0x01, 0x07, 0x00, 0x03, 0x00, 0x00, 0x03, 0x11, 0x22, 0x33, 0x00, 0x0E, 0xAA, 0x0A,
      0x01, 0x07, 0x00, 0x03, 0x00, 0x00, 0x03, 0x11, 0x22, 0x33, 0x59, 0x65, 0x02, 0x07, 0x00, 0x03, 0x11, 0x22,
      0x33] := by decide +kernel

theorem test_rxByte_no_event : reply State.reset [0x22, 0xAA] = some [0x00, 0x00] := by decide +kernel

/-! ### System commands (V-CMD) -/

theorem test_regRead : reply State.reset [0x50, 0x04] = some [0x00, 0x00, 0x00, 0xFF, 0xFF] ∧
    reply State.reset [0x50, 0x07] = some [0x00, 0x00, 0x00, 0x00, 0x40] ∧
    reply (configured 255 .restart .coverage) [0x50, 0x08] = some [0x00, 0x00, 0x00, 0x00, 0x03] ∧
    reply (parserAt inCrcLo) [0x50, 0x01] = some [0x00, 0x00, 0x00, 0x00, 0x04] ∧
    reply (State.reset.setSlot 255 (half 2)) [0x50, 0x06] = some [0x00, 0x00, 0x00, 0x00, 0x01] := by decide +kernel

theorem test_regRead_unmapped : reply State.reset [0x50, 0x09] = some [0x01] ∧
    reply State.reset [0x50, 0x0F] = some [0x01] ∧ reply State.reset [0x50, 0x14] = some [0x01] ∧
    reply State.reset [0x50, 0xFF] = some [0x01] := by decide +kernel

theorem test_coreReset : after (({ State.reset with parser := inCrcLo, crcAcc := 0x1234 } : State).setSlot 5 (half 2)) [0x60] =
    some { State.reset with responses := [[0x00]] } := by decide +kernel

theorem test_rejected_packets : reply State.reset [] = some [0x03] ∧ reply State.reset [0x00] = some [0x02] ∧
    reply State.reset [0x10, 0x00, 0x01] = some [0x03] ∧ reply State.reset [0x60, 0x60] = some [0x03] := by
  decide +kernel

/-- An opcode-table word placed in the reset state is what the next step runs. -/
theorem test_withFetchWord : step (State.reset.withFetchWord 8 0x02) = exec (.crcStep 0) State.reset ∧
    step (State.reset.withFetchWord 16 0x200) = exec (.prsFeed 0) (parserAt (tableParser .data)) := ⟨rfl, rfl⟩

/-! ### Witnesses: a concrete state and operands that meet the hypotheses of each statement that has some

Each theorem is named after its statement. Where a statement has several clauses there is a witness for each. -/

/-- The reset state meets the invariants in every legal configuration. -/
theorem reset_inv (m : Byte) (policy : MismatchPolicy) (mode : CompletionMode) (h : 8 ≤ m.toNat) :
    (configured m policy mode).Inv := by
  refine ⟨h, Parser.reset_inv _, fun t => ?_, rfl⟩
  have : (configured m policy mode).slot t = Slot.reset := State.reset_slot t
  rw [this]
  exact Slot.reset_inv _

theorem witness_reference_legal : Config.reference.Legal := by decide

theorem waiting_inv (p : Bytes) : (waiting p).Inv := by
  refine ⟨witness_reference_legal, Parser.reset_inv _, fun t => ?_, rfl⟩
  have : (waiting p).slot t = Slot.reset := State.reset_slot t
  rw [this]
  exact Slot.reset_inv _

theorem witness_CommandPacketsRoundTrip : (Instr.crcCompute 0xFFFE [0x61]).wellFormed = true ∧
    encode (.crcCompute 0xFFFE [0x61]) = .packet [0x03, 0xFF, 0xFE, 0x00, 0x01, 0x61] := by decide

theorem witness_DecodedPacketsReencode : decode [0x40, 0x00, 0x00] = .instr (.rsmAccept []) := by decide

/-- A row for each of the nine transitions, at a boundary byte or length where the row has one. -/
theorem witness_rows :
    Transition.syncHit.Row State.reset 0xAA ∧ Transition.syncDrop.Row State.reset 0xAB ∧
    Transition.lenBad.Row (parserAt inLen) 0x41 ∧ Transition.lenBad.Row (parserAt inLen) 0x00 ∧
    Transition.lenOk.Row (parserAt inLen) 0x40 ∧ Transition.lenOk.Row (parserAt inLen) 0x01 ∧
    Transition.data.Row (parserAt (inData 2 0xC1B2 [])) 0x68 ∧
    Transition.dataLast.Row (parserAt (inData 2 0x96C3 [0x68])) 0x69 ∧
    Transition.crcHi.Row (parserAt inCrcHi) 0xDD ∧ Transition.crcMatch.Row (parserAt inCrcLo) 0xF0 ∧
    Transition.crcMismatch.Row (parserAt inCrcLo) 0xF1 := by
  refine ⟨⟨rfl, rfl⟩, ⟨rfl, by decide⟩, ⟨rfl, .inr (by decide)⟩, ⟨rfl, .inl rfl⟩, ⟨rfl, by decide, by decide⟩,
    ⟨rfl, by decide, by decide⟩, ⟨rfl, by decide⟩, ⟨rfl, by decide⟩, rfl, ⟨rfl, by decide⟩, ⟨rfl, by decide⟩⟩

theorem witness_DecodeKeysRoundTrip : Transition.crcMatch.Row (parserAt inCrcLo) 0xF0 :=
  witness_rows.2.2.2.2.2.2.2.2.2.1

/-- A packet for each status. -/
theorem witness_StatusOfEveryPacket : ((waiting []).Inv ∧ (waiting []).port = [] :: []) ∧
    expectedStatus Config.reference [] = 0x03 ∧ expectedStatus Config.reference [0x00] = 0x02 ∧
    expectedStatus Config.reference [0x10, 0x00, 0x01] = 0x03 ∧
    expectedStatus Config.reference [0x10, 0x00, 0x00] = 0x01 ∧
    expectedStatus Config.reference [0x50, 0x09] = 0x01 ∧ expectedStatus Config.reference [0x60] = 0x00 :=
  ⟨⟨waiting_inv _, rfl⟩, by decide⟩

theorem witness_StepRunsDecodedInstruction : (waiting [0x02, 0x31]).port = [0x02, 0x31] :: [] ∧
    decode [0x02, 0x31] = .instr (.crcStep 0x31) := ⟨rfl, by decide⟩

/-- One witness for each of the three clauses; the opcodes next to an assigned one are unassigned. -/
theorem witness_RejectedPacketsAreAnswered : (waiting []).port = [] :: [] ∧
    ((waiting [0x00]).port = [0x00] :: [] ∧ (0x00 : Byte) ∉ assignedOpcodes ∧ (0x04 : Byte) ∉ assignedOpcodes ∧
      (0x61 : Byte) ∉ assignedOpcodes ∧ (0xFF : Byte) ∉ assignedOpcodes) ∧
    ((waiting [0x10, 0x00, 0x01]).port = [0x10, 0x00, 0x01] :: [] ∧ (0x10 : Byte) ∈ assignedOpcodes ∧
      packetLength [0x10, 0x00, 0x01] ≠ some 3) := ⟨rfl, ⟨rfl, by decide⟩, rfl, by decide⟩

theorem witness_IdleStepKeepsState : State.reset.port = [] := rfl

theorem witness_EveryCommandGetsOneResponse :
    (waiting [0x60]).Inv ∧ (waiting [0x60]).port = [0x60] :: [] := ⟨waiting_inv _, rfl⟩

theorem witness_StepKeepsInvariants : (waiting [0x20, 0xAA]).Inv ∧ ∃ t, step (waiting [0x20, 0xAA]) = .next t :=
  ⟨waiting_inv _, _, rfl⟩

theorem witness_ErrorsChangeNothing : (waiting [0x50, 0x09]).port = [0x50, 0x09] :: [] ∧
    ∃ t, step (waiting [0x50, 0x09]) = .next t ∧ t.responses = (waiting [0x50, 0x09]).responses ++ [[0x01]] ∧
      ([0x01] : Bytes).head? ≠ some 0x00 := ⟨rfl, _, rfl, rfl, by decide⟩

/-- Payloads of 1 and of MAX_PAYLOAD bytes, and of 0 and of MAX_PAYLOAD + 1. -/
theorem witness_FrmEncodeAnswersFrame :
    (1 ≤ ([0x61] : Bytes).length ∧ ([0x61] : Bytes).length ≤ State.reset.cfg.maxPayload.toNat) ∧
    (1 ≤ (List.replicate 64 (0 : Byte)).length ∧
      (List.replicate 64 (0 : Byte)).length ≤ State.reset.cfg.maxPayload.toNat) ∧
    ([] : Bytes).length = 0 ∧ State.reset.cfg.maxPayload.toNat < (List.replicate 65 (0 : Byte)).length := by decide

theorem witness_HuntingTransitions : State.reset.parser.state = .sync ∧ (0xAB : Byte) ≠ 0xAA := ⟨rfl, by decide⟩

theorem witness_LengthTransitions : (parserAt inLen).parser.state = .len ∧
    ((0x41 : Byte) = 0 ∨ (parserAt inLen).cfg.maxPayload.toNat < (0x41 : Byte).toNat) ∧
    1 ≤ (0x40 : Byte).toNat ∧ (0x40 : Byte).toNat ≤ (parserAt inLen).cfg.maxPayload.toNat :=
  ⟨rfl, by decide, by decide, by decide⟩

theorem witness_DataTransitions :
    (Transition.data.Row (parserAt (inData 2 0xC1B2 [])) 0x68) ∧
    (Transition.dataLast.Row (parserAt (inData 2 0x96C3 [0x68])) 0x69) ∧
    (Transition.dataLast.Row (parserAt (inData 1 0xF1D1 [])) 0x61) :=
  ⟨⟨rfl, by decide⟩, ⟨rfl, by decide⟩, rfl, by decide⟩

theorem witness_CrcTransitions : (parserAt inCrcHi).parser.state = .crcHi ∧
    ((parserAt inCrcLo).parser.state = .crcLo ∧ be16 (parserAt inCrcLo).parser.crcHi 0xF0 =
      (parserAt inCrcLo).parser.crc) ∧
    be16 (parserAt inCrcLo).parser.crcHi 0xF1 ≠ (parserAt inCrcLo).parser.crc :=
  ⟨rfl, ⟨rfl, by decide⟩, by decide⟩

theorem witness_TransitionsStopOutsideTheirRow :
    ((Transition.lenOk = .syncHit → (0x01 : Byte) = 0xAA) ∧ ¬ Transition.lenOk.Row State.reset 0x01) ∧
    (¬ Transition.syncHit.Row (parserAt inLen) 0xAA) ∧
    ¬ Transition.data.Row (parserAt (inData 2 0x96C3 [0x68])) 0x69 :=
  ⟨⟨nofun, fun h => absurd h.1 (by decide)⟩, fun h => absurd h.1 (by decide), fun h => absurd h.2 (by decide)⟩

/-- The parser's invariants in each of the five states. -/
theorem witness_ExactlyOneTransitionApplies : Parser.reset.Inv 64 ∧ inLen.Inv 64 ∧ (inData 2 0x96C3 [0x68]).Inv 64 ∧
    inCrcHi.Inv 64 ∧ inCrcLo.Inv 64 := by
  refine ⟨rfl, ⟨rfl, rfl⟩, ?_, ?_, ?_⟩ <;> exact ⟨by decide, by decide, by decide, by decide +kernel⟩

theorem witness_PrsFeedRunsTheTransition : Transition.data.Row (parserAt (inData 2 0xC1B2 [])) 0x68 ∧
    Transition.crcMatch.Row (parserAt inCrcLo) 0xF0 := ⟨⟨rfl, by decide⟩, rfl, by decide⟩

theorem witness_EncodedFramesAreDecoded : State.reset.parser.state = .sync ∧
    (1 ≤ (List.replicate 64 (0 : Byte)).length ∧
      (List.replicate 64 (0 : Byte)).length ≤ State.reset.cfg.maxPayload.toNat) := ⟨rfl, by decide⟩

/-- Two frames, the first behind noise, the second behind none. -/
theorem witness_NoisyStreamIsDecoded : State.reset.parser.state = .sync ∧
    ∀ c ∈ ([([0x00, 0x55, 0xFF, 0x13], [0x61]), ([], [0xAA])] : List (Bytes × Bytes)),
      (0xAA : Byte) ∉ c.1 ∧ 1 ≤ c.2.length ∧ c.2.length ≤ State.reset.cfg.maxPayload.toNat := ⟨rfl, by decide⟩

theorem witness_FlippedCrcBitsAreRejected : State.reset.parser.state = .sync ∧ 1 ≤ ([0x61] : Bytes).length ∧
    ([0x61] : Bytes).length ≤ State.reset.cfg.maxPayload.toNat ∧ (0 : Nat) < 16 ∧ (15 : Nat) < 16 :=
  ⟨rfl, by decide, by decide, by decide, by decide⟩

/-- The two sides of MAX_PAYLOAD = 170. -/
theorem witness_SecondSyncByteIsALength :
    ((configured 169 .reject .counter).parser.state = .sync ∧
      (configured 169 .reject .counter).cfg.maxPayload.toNat < 170) ∧
    ((configured 170 .reject .counter).parser.state = .sync ∧
      170 ≤ (configured 170 .reject .counter).cfg.maxPayload.toNat) :=
  ⟨⟨rfl, by decide⟩, rfl, by decide⟩

/-- Legal configurations: the smallest, the reference and the largest. -/
theorem witness_legal : (configured 8 .reject .counter).cfg.Legal ∧ State.reset.cfg.Legal ∧
    (configured 255 .restart .coverage).cfg.Legal := by decide

theorem witness_SegSplitAnswersPieces : (configured 8 .reject .counter).cfg.Legal := witness_legal.1

theorem witness_SegSplitRawAnswersSlices : (configured 8 .reject .counter).cfg.Legal := witness_legal.1

/-- A legal configuration, and a piece the second clause speaks of. -/
theorem witness_TxSegmentedAnswersFrames : State.reset.cfg.Legal ∧
    ([0x01, 0x07, 0x00, 0x01, 0x00, 0x00, 0x01, 0x11] : Bytes) ∈ expectedPieces State.reset.cfg 0x07 [0x11] := by
  decide +kernel

theorem witness_TxRawAnswersFrames : State.reset.cfg.Legal ∧
    ([0x11] : Bytes) ∈ expectedRawPieces State.reset.cfg [0x11] := by decide +kernel

theorem witness_SplitCoversTheData : Config.reference.Legal ∧ 1 ≤ ([0x11] : Bytes).length := by decide

/-- Each clause: six bytes; a reserved type; a length too large; a bound one too large. -/
theorem witness_InconsistentSegmentsAreRefused :
    ([0x01, 0x05, 0x00, 0x04, 0x00, 0x00] : Bytes).length < 7 ∧
    ((0x02 : Byte) ≠ 0x01 ∨ (0x02 : Byte).toNat ≠ ([0xAA, 0xBB] : Bytes).length ∨
      ((0x00 : Byte).toNat * 256 + (0x00 : Byte).toNat) + (0x02 : Byte).toNat >
        (0x00 : Byte).toNat * 256 + (0x02 : Byte).toNat) ∧
    ((0x02 : Byte).toNat ≠ ([0xAA] : Bytes).length) ∧
    (((0x00 : Byte).toNat * 256 + (0x01 : Byte).toNat) + (0x02 : Byte).toNat >
      (0x00 : Byte).toNat * 256 + (0x02 : Byte).toNat) := by decide

/-- An active transfer of total 4 and a segment of total 6, under each policy. -/
theorem witness_TotalMismatchFollowsThePolicy :
    ((0x02 : Byte).toNat = ([0x11, 0x22] : Bytes).length ∧
      ((0x00 : Byte).toNat * 256 + (0x04 : Byte).toNat) + (0x02 : Byte).toNat ≤
        (0x00 : Byte).toNat * 256 + (0x06 : Byte).toNat) ∧
    (((configured 64 .reject .counter).setSlot 5 (half 2)).slot 5).active = true ∧
    (((configured 64 .reject .counter).setSlot 5 (half 2)).slot 5).total ≠ be16 0x00 0x06 ∧
    ((configured 64 .reject .counter).setSlot 5 (half 2)).cfg.policy = .reject ∧
    (((configured 64 .restart .coverage).setSlot 5 (half 0)).slot 5).active = true ∧
    (((configured 64 .restart .coverage).setSlot 5 (half 0)).slot 5).total ≠ be16 0x00 0x06 ∧
    ((configured 64 .restart .coverage).setSlot 5 (half 0)).cfg.policy = .restart := by decide +kernel

/-- The half-filled slots meet the slot invariants. -/
theorem half_inv : (half 2).Inv .counter ∧ (half 0).Inv .coverage := by
  rw [Slot.inv_active rfl, Slot.inv_active rfl]
  decide

/-- The cells after a chunk is written: the expression of the statement, for a slot `x`. -/
def cellsAfter (x : Slot) (off : Nat) (chunk : Bytes) (a : Nat) : Option Byte :=
  if off ≤ a ∧ a < off + chunk.length then chunk[a - off]?
  else if x.active then Memory.read x.buf a else none

/-- The hypotheses of SegmentsAreWrittenAndCounted, with the cells it computes. -/
def SegmentHypotheses (tid t1 t0 o1 o0 k : Byte) (chunk : Bytes) (s : State) (off total count : Nat)
    (cell : Nat → Option Byte) : Prop :=
  off = o1.toNat * 256 + o0.toNat ∧ total = t1.toNat * 256 + t0.toNat ∧ k.toNat = chunk.length ∧
  off + k.toNat ≤ total ∧ (s.slot tid).Inv s.cfg.mode ∧
  ((s.slot tid).active = true → (s.slot tid).total = be16 t1 t0) ∧
  (count = (match s.cfg.mode with
    | .counter => (s.slot tid).received.toNat + k.toNat
    | .coverage => cellsWritten total cell)) ∧
  ∀ a, cell a = if off ≤ a ∧ a < off + chunk.length then chunk[a - off]?
    else if (s.slot tid).active then Memory.read (s.slot tid).buf a else none

/-- Progress: the first chunk of a new transfer. -/
theorem witness_SegmentsAreWrittenAndCounted_progress :
    SegmentHypotheses 5 0x00 0x04 0x00 0x02 0x02 [0xCC, 0xDD] State.reset 2 4 2
      (cellsAfter Slot.reset 2 [0xCC, 0xDD]) ∧ 2 < 4 := by
  rw [SegmentHypotheses, State.reset_slot]
  exact ⟨⟨by decide, by decide, by decide, by decide, Slot.reset_inv _, nofun, by decide, fun _ => rfl⟩, by decide⟩

/-- Completion under COUNTER by a duplicate, with two cells still HOLE. -/
theorem witness_SegmentsAreWrittenAndCounted_holes :
    SegmentHypotheses 5 0x00 0x04 0x00 0x00 0x02 [0xAA, 0xBB] ((configured 64 .reject .counter).setSlot 5 (half 2))
      0 4 4 (cellsAfter (half 2) 0 [0xAA, 0xBB]) ∧ 4 ≤ 4 ∧ cellsAfter (half 2) 0 [0xAA, 0xBB] 2 = none := by
  rw [SegmentHypotheses, State.setSlot_slot_self]
  exact ⟨⟨by decide, by decide, by decide, by decide, half_inv.1, fun _ => rfl, by decide, fun _ => rfl⟩, by decide,
    by decide⟩

/-- Progress and completion under COVERAGE: the first two bytes again, and the last two. -/
theorem witness_SegmentsAreWrittenAndCounted_coverage :
    (SegmentHypotheses 5 0x00 0x04 0x00 0x00 0x02 [0xAA, 0xBB] ((configured 64 .reject .coverage).setSlot 5 (half 0))
      0 4 2 (cellsAfter (half 0) 0 [0xAA, 0xBB]) ∧ 2 < 4) ∧
    SegmentHypotheses 5 0x00 0x04 0x00 0x02 0x02 [0xCC, 0xDD] ((configured 64 .reject .coverage).setSlot 5 (half 0))
      2 4 4 (cellsAfter (half 0) 2 [0xCC, 0xDD]) ∧ 4 ≤ 4 := by
  rw [SegmentHypotheses, SegmentHypotheses, State.setSlot_slot_self]
  exact ⟨⟨⟨by decide, by decide, by decide, by decide, half_inv.2, fun _ => rfl, by decide, fun _ => rfl⟩, by decide⟩,
    ⟨by decide, by decide, by decide, by decide, half_inv.2, fun _ => rfl, by decide, fun _ => rfl⟩, by decide⟩

theorem witness_AcceptTouchesOnlyItsSlot : carriesId 6 [0x01, 0x05, 0x00, 0x04, 0x00, 0x00, 0x00] = false := by decide

/-- Two states that differ in the slot of another id. -/
theorem witness_TransfersAreIsolated : carriesId 5 [0x01, 0x05, 0x00, 0x04, 0x00, 0x00, 0x00] = true ∧
    State.reset.cfg = (State.reset.setSlot 6 (half 2)).cfg ∧
    State.reset.slot 5 = (State.reset.setSlot 6 (half 2)).slot 5 ∧
    State.reset.readouts = (State.reset.setSlot 6 (half 2)).readouts ∧
    (∃ t, exec (.rsmAccept [0x01, 0x05, 0x00, 0x04, 0x00, 0x00, 0x00]) State.reset = .next t) ∧
    ∃ t, exec (.rsmAccept [0x01, 0x05, 0x00, 0x04, 0x00, 0x00, 0x00]) (State.reset.setSlot 6 (half 2)) = .next t :=
  ⟨by decide, rfl, by decide +kernel, rfl, ⟨_, rfl⟩, _, rfl⟩

/-- A chunk of one byte accepted twice for a transfer of four. -/
theorem witness_DuplicatesRewriteTheSameBytes :
    carriesId 5 [0x01, 0x05, 0x00, 0x04, 0x00, 0x01, 0x01, 0xBB] = true ∧
    (State.reset.slot 5).Inv State.reset.cfg.mode ∧
    ∃ t u, exec (.rsmAccept [0x01, 0x05, 0x00, 0x04, 0x00, 0x01, 0x01, 0xBB]) State.reset = .next t ∧
      (t.slot 5).active = true ∧
      exec (.rsmAccept [0x01, 0x05, 0x00, 0x04, 0x00, 0x01, 0x01, 0xBB]) t = .next u ∧
      (u.slot 5).active = true := by
  refine ⟨by decide, ?_, _, _, rfl, by decide +kernel, rfl, by decide +kernel⟩
  rw [State.reset_slot]
  exact Slot.reset_inv _

theorem witness_CoverageIgnoresDuplicates :
    carriesId 5 [0x01, 0x05, 0x00, 0x04, 0x00, 0x00, 0x02, 0xAA, 0xBB] = true ∧
    ((configured 64 .reject .coverage).slot 5).Inv (configured 64 .reject .coverage).cfg.mode ∧
    (configured 64 .reject .coverage).cfg.mode = .coverage ∧
    ∃ t, exec (.rsmAccept [0x01, 0x05, 0x00, 0x04, 0x00, 0x00, 0x02, 0xAA, 0xBB]) (configured 64 .reject .coverage) =
      .next t ∧ (t.slot 5).active = true :=
  ⟨by decide, (reset_inv 64 .reject .coverage (by decide)).2.2.1 5, rfl, _, rfl, by decide +kernel⟩

/-- The three clauses: an inactive slot; the same with offset = total; an active slot with an equal total. -/
theorem witness_EmptySegments : State.reset.slot 5 = Slot.reset ∧
    (1 ≤ (be16 0x00 0x04).toNat ∧ (be16 0x00 0x04).toNat ≤ (be16 0x00 0x04).toNat) ∧
    (((configured 64 .reject .counter).setSlot 5 (half 2)).slot 5).Inv
      ((configured 64 .reject .counter).setSlot 5 (half 2)).cfg.mode ∧
    (((configured 64 .reject .counter).setSlot 5 (half 2)).slot 5).active = true ∧
    (((configured 64 .reject .counter).setSlot 5 (half 2)).slot 5).total = be16 0x00 0x04 := by
  rw [State.setSlot_slot_self]
  exact ⟨State.reset_slot 5, by decide, half_inv.1, rfl, rfl⟩

/-- Two pieces of one byte each, delivered out of order with a frame of another id between them. -/
theorem witness_SplitTransfersReassemble : (configured 8 .reject .counter).cfg.Legal ∧
    (configured 8 .reject .counter).slot 5 = Slot.reset ∧ 1 ≤ ([0x61, 0x62] : Bytes).length ∧
    ([0x61, 0x62] : Bytes).length ≤ 65535 ∧
    (([[0x01, 0x05, 0x00, 0x02, 0x00, 0x01, 0x01, 0x62], [0x01, 0x06, 0x00, 0x00, 0x00, 0x00, 0x00],
        [0x01, 0x05, 0x00, 0x02, 0x00, 0x00, 0x01, 0x61]] : List Bytes).filter (carriesId 5)).Perm
      (split (configured 8 .reject .counter).cfg 5 [0x61, 0x62]) :=
  ⟨by decide, State.reset_slot 5, by decide, by decide, by decide +kernel⟩

/-- An active and an inactive slot. -/
theorem witness_RsmStatusReportsTheSlot : (State.reset.slot 5).Inv State.reset.cfg.mode ∧
    ((State.reset.setSlot 5 (half 2)).slot 5).Inv (State.reset.setSlot 5 (half 2)).cfg.mode := by
  rw [State.setSlot_slot_self, State.reset_slot]
  exact ⟨Slot.reset_inv _, half_inv.1⟩

theorem witness_RxByteRunsThePipeline :
    (Transition.crcMismatch.Row (parserAt inCrcLo) 0xF1 ∧ Transition.crcMismatch ≠ .crcMatch) ∧
    (parserAt inCrcLo).parser.state = .crcLo ∧
    be16 (parserAt inCrcLo).parser.crcHi 0xF0 = (parserAt inCrcLo).parser.crc :=
  ⟨⟨⟨rfl, by decide⟩, by decide⟩, rfl, by decide⟩

/-- A row of the map, and the addresses on either side of each gap of it. -/
theorem witness_RegReadFollowsTheMap :
    ((0x13 : Byte), State.reset.counters.syncDrop) ∈
      ([(0x12, State.reset.counters.crcErr), (0x13, State.reset.counters.syncDrop)] : List (Byte × U32)) ∧
    (0x08 : Byte) ∈ mappedRegisters ∧ (0x09 : Byte) ∉ mappedRegisters ∧
    (0x0F : Byte) ∉ mappedRegisters ∧ (0x10 : Byte) ∈ mappedRegisters ∧ (0x13 : Byte) ∈ mappedRegisters ∧
    (0x14 : Byte) ∉ mappedRegisters ∧ (0xFF : Byte) ∉ mappedRegisters := by decide

theorem witness_PureCommandsWriteNothing : ∃ a : Byte, Instr.regRead 0x04 = .regRead a := ⟨_, rfl⟩

/-- Two states that agree in nothing but the configuration. -/
theorem witness_TransmitCommandsReadNothing :
    (∃ d, Instr.frmEncode [0x61] = .frmEncode d) ∧ State.reset.cfg = (parserAt inCrcLo).cfg ∧
    (∃ t, exec (.frmEncode [0x61]) State.reset = .next t) ∧ ∃ t, exec (.frmEncode [0x61]) (parserAt inCrcLo) = .next t :=
  ⟨⟨_, rfl⟩, rfl, ⟨_, rfl⟩, _, rfl⟩

theorem witness_ReceivePathIgnoresCrcAcc : (∃ b, Instr.rxByte 0xF0 = .rxByte b) ∧
    ∃ t, exec (.rxByte 0xF0) (parserAt inCrcLo) = .next t := ⟨⟨_, rfl⟩, _, rfl⟩

/-- For each register an instruction that does change it. -/
theorem witness_WritersOfEachRegister :
    (∃ t, exec (.crcStep 0x31) State.reset = .next t ∧ t.crcAcc ≠ State.reset.crcAcc) ∧
    (∃ t, exec (.prsFeed 0xAA) State.reset = .next t ∧ t.parser ≠ State.reset.parser) ∧
    (∃ t, exec .rsmClear (State.reset.setSlot 5 (half 2)) = .next t ∧
      t.slots ≠ (State.reset.setSlot 5 (half 2)).slots) ∧
    (∃ t, exec (.rxByte 0x13) State.reset = .next t ∧ t.counters ≠ State.reset.counters) :=
  ⟨⟨_, rfl, by decide +kernel⟩, ⟨_, rfl, by decide +kernel⟩, ⟨_, rfl, by decide +kernel⟩, _, rfl, by decide +kernel⟩

theorem witness_ConfigurationIsFixed : ∃ t, step (waiting [0x60]) = .next t := ⟨_, rfl⟩

end Sys2Proof.Tests
end

section
/-! PROOF. The family of 00_scope.md: a step on a packet that decodes. -/

namespace Sys2Proof.Machine

/-- Settles O6: of the cases of a step on a waiting packet (`step_of_port`) it is the one where the packet decodes. -/
theorem stepRunsDecodedInstruction : Obligations.StepRunsDecodedInstruction := by
  intro s p rest i hport hdecode
  have hstep := step_of_port hport
  rwa [hdecode] at hstep

end Sys2Proof.Machine
end

section
/-! PROOF. The family of 10_state.md: which instructions write which register, that the configuration is fixed, and
that reset meets the invariants and every step keeps them. -/

namespace Sys2Proof.Machine

open Sys2Proof

/-! ### Commands and packets -/

/-- A command has a packet: the decode keys are those of the parser transitions. -/
theorem encode_packet_of_command {i : Instr} (hi : ∀ (u : Transition) (b : Byte), i ≠ u.instr b) :
    ∃ p, encode i = .packet p := by
  cases i
  case prsSyncHit => exact absurd rfl (hi .syncHit 0xAA)
  case prsSyncDrop b => exact absurd rfl (hi .syncDrop b)
  case prsLenBad b => exact absurd rfl (hi .lenBad b)
  case prsLenOk b => exact absurd rfl (hi .lenOk b)
  case prsData b => exact absurd rfl (hi .data b)
  case prsDataLast b => exact absurd rfl (hi .dataLast b)
  case prsCrcHi b => exact absurd rfl (hi .crcHi b)
  case prsCrcMatch b => exact absurd rfl (hi .crcMatch b)
  case prsCrcMismatch b => exact absurd rfl (hi .crcMismatch b)
  all_goals exact ⟨_, rfl⟩

/-- No row of the opcode map reads a parser transition. -/
theorem operands_ne_transition (o : Opcode) (p : Bytes) (u : Transition) (b : Byte) :
    o.operands p ≠ .instr (u.instr b) := by
  intro h
  cases o
  case prsReset | rsmClear | coreReset =>
    have hi := (operands0_eq_instr h).2
    cases u <;> cases hi
  case crcStep | prsFeed | rxByte | rsmStatus | regRead =>
    obtain ⟨a, -, hi⟩ := operands1_eq_instr h
    cases u <;> cases hi
  case crcInit =>
    obtain ⟨a, -, hi⟩ := operands2_eq_instr h
    cases u <;> cases hi
  case frmEncode | segSplitRaw | txRaw | rsmAccept =>
    obtain ⟨d, -, -, hi⟩ := operandsB_eq_instr h
    cases u <;> cases hi
  case segSplit | txSegmented =>
    obtain ⟨a, d, -, -, hi⟩ := operands1B_eq_instr h
    cases u <;> cases hi
  case crcCompute =>
    obtain ⟨a, d, -, -, hi⟩ := operands2B_eq_instr h
    cases u <;> cases hi

/-- A packet decodes to a command only: the parser transitions have no packet (30_encoding.md R82, R93). -/
theorem decode_command {p : Bytes} {i : Instr} (h : decode p = .instr i) (u : Transition) (b : Byte) :
    i ≠ u.instr b := by
  rintro rfl
  rcases decode_cases p with ⟨-, hd⟩ | ⟨op, rest, -, -, hd⟩ | ⟨o, rest, -, hd⟩ <;> rw [hd] at h
  · cases h
  · cases h
  · exact operands_ne_transition o rest u b h

/-! ### The writers of each register -/

@[simp] theorem crcMatch_crcAcc (b : Byte) (s : State) : (crcMatch b s).crcAcc = s.crcAcc := rfl

/-- Settles O53: a transition writes the parser and the counters at most (`exec_transition_frame`); of the commands each
writes its own unit, and PRS_FEED, RX_BYTE and RSM_ACCEPT leave alone what the transition they run and `rsm_accept`
leave alone. -/
theorem writersOfEachRegister : Obligations.WritersOfEachRegister := by
  intro i s t h
  rcases transition_or_command i with ⟨u, b, rfl⟩ | hi
  · obtain ⟨-, hacc, hslots, -⟩ := exec_transition_frame h
    exact ⟨fun hne => absurd hacc hne, fun _ => .inr (.inr (.inr (.inr ⟨u, b, rfl⟩))), fun hne => absurd hslots hne,
      fun _ => .inr (.inr (.inr ⟨u, b, rfl⟩))⟩
  obtain ⟨p, hp⟩ := encode_packet_of_command hi
  cases i
  case prsFeed b =>
    rcases exec_prsFeed_cases b s with ⟨u, -, hx⟩ | ⟨-, hx⟩ <;> rw [hx] at h <;> cases h
    simp
  case rxByte b =>
    rcases exec_rxByte_cases b s with ⟨u, -, -, hx⟩ | ⟨-, hx⟩ | ⟨-, hx⟩ <;> rw [hx] at h <;> cases h
    · simp
    · obtain ⟨-, hacc, -⟩ := rsmAccept_frame (crcMatch b s) s.parser.acc
      simp [hacc]
  case rsmAccept d =>
    obtain ⟨-, hacc, hparser, hcounters, -⟩ := rsmAccept_frame s d
    rw [exec_rsmAccept] at h
    cases h
    simp [hacc, hparser, hcounters]
  case frmEncode d => rcases exec_frmEncode_cases d s with ⟨-, hx⟩ | ⟨-, hx⟩ <;> rw [hx] at h <;> cases h <;> simp
  case regRead a => rcases exec_regRead_cases a s with ⟨v, -, hx⟩ | ⟨-, hx⟩ <;> rw [hx] at h <;> cases h <;> simp
  case crcInit | crcStep | prsReset | rsmClear | coreReset | crcCompute | segSplit | segSplitRaw | txSegmented | txRaw |
      rsmStatus => cases h; simp
  all_goals cases hp

/-! ### The configuration -/

/-- No instruction writes the configuration. -/
theorem exec_cfg {i : Instr} {s t : State} (h : exec i s = .next t) : t.cfg = s.cfg := by
  rcases transition_or_command i with ⟨u, b, rfl⟩ | hi
  · exact (exec_transition_frame h).1
  · obtain ⟨-, -, hcfg, -⟩ := exec_command_answers hi h
    exact hcfg

/-- Settles O54: an idle step and a rejected packet keep the configuration, and so does every instruction
(`exec_cfg`). -/
theorem configurationIsFixed : Obligations.ConfigurationIsFixed := by
  intro s t h
  rcases step_cases s with ⟨-, hs⟩ | ⟨p, rest, i, -, -, hs⟩ | ⟨p, rest, why, -, -, hs⟩ <;> rw [hs] at h
  · cases h; rfl
  · exact exec_cfg (s := { s with port := rest }) h
  · cases h; rfl

/-! ### The invariants -/

/-- Settles O11: each field of `State.reset` is R40's reset value, and reset values meet the invariants. -/
theorem resetMeetsInvariants : Obligations.ResetMeetsInvariants :=
  ⟨⟨by decide, Parser.reset_inv _, fun t => State.reset_slot t ▸ Slot.reset_inv _, rfl⟩, rfl, rfl, State.reset_slot,
    rfl⟩

/-- A command keeps the parser's invariants: only PRS_FEED, RX_BYTE and the two resets write the parser. -/
theorem exec_command_parser_inv {i : Instr} {s t : State} (hi : ∀ (u : Transition) (b : Byte), i ≠ u.instr b)
    (h : exec i s = .next t) (hp : s.parser.Inv s.cfg.maxPayload) : t.parser.Inv s.cfg.maxPayload := by
  obtain ⟨-, hwriters, -, -⟩ := writersOfEachRegister i s t h
  by_cases hsame : t.parser = s.parser
  · rwa [hsame]
  rcases hwriters hsame with ⟨b, rfl⟩ | ⟨b, rfl⟩ | rfl | rfl | ⟨u, b, rfl⟩
  · rcases exec_prsFeed_cases b s with ⟨u, hr, hx⟩ | ⟨-, hx⟩ <;> rw [hx] at h <;> cases h
    exact runTransition_parser_inv hr hp
  · rcases exec_rxByte_cases b s with ⟨u, hr, -, hx⟩ | ⟨-, hx⟩ | ⟨-, hx⟩ <;> rw [hx] at h <;> cases h
    · exact runTransition_parser_inv hr hp
    · obtain ⟨-, -, hparser, -⟩ := rsmAccept_frame (crcMatch b s) s.parser.acc
      rw [State.respond_parser, hparser]
      exact Parser.reset_inv _
  · cases h; exact Parser.reset_inv _
  · cases h; exact Parser.reset_inv _
  · exact absurd rfl (hi u b)

/-- Every instruction keeps the slots' invariants: only RSM_ACCEPT, RX_BYTE, RSM_CLEAR and CORE_RESET write a slot. -/
theorem exec_slots_inv {i : Instr} {s t : State} (h : exec i s = .next t) (hs : ∀ u, (s.slot u).Inv s.cfg.mode) :
    ∀ u, (t.slot u).Inv s.cfg.mode := by
  obtain ⟨-, -, hwriters, -⟩ := writersOfEachRegister i s t h
  by_cases hsame : t.slots = s.slots
  · exact fun u => State.slot_congr hsame u ▸ hs u
  rcases hwriters hsame with ⟨d, rfl⟩ | ⟨b, rfl⟩ | rfl | rfl
  · rw [exec_rsmAccept] at h
    cases h
    exact rsmAccept_slots_inv hs d
  · rcases exec_rxByte_cases b s with ⟨v, -, -, hx⟩ | ⟨-, hx⟩ | ⟨-, hx⟩ <;> rw [hx] at h <;> cases h
    · exact fun u => by simpa using hs u
    · exact rsmAccept_slots_inv (s := crcMatch b s) hs s.parser.acc
  · cases h; exact fun u => by simpa using Slot.reset_inv _
  · cases h; exact fun u => by simpa using Slot.reset_inv _

/-- A command keeps the invariants of 10_state.md. -/
theorem exec_command_inv {i : Instr} {s t : State} (hi : ∀ (u : Transition) (b : Byte), i ≠ u.instr b)
    (h : exec i s = .next t) (hs : s.Inv) : t.Inv := by
  obtain ⟨hlegal, hparser, hslots, -⟩ := hs
  obtain ⟨-, hevent, hcfg, -⟩ := exec_command_answers hi h
  rw [State.Inv, hcfg]
  exact ⟨hlegal, exec_command_parser_inv hi h hparser, exec_slots_inv h hslots, hevent⟩

/-- Settles O10: a step idles, runs a command (a packet decodes to no transition, `decode_command`), or answers a
rejected packet; a command keeps the invariants (`exec_command_inv`), and the other two leave the block as it was. -/
theorem stepKeepsInvariants : Obligations.StepKeepsInvariants := by
  intro s t hinv h
  rcases step_cases s with ⟨-, hs⟩ | ⟨p, rest, i, -, hd, hs⟩ | ⟨p, rest, why, -, -, hs⟩ <;> rw [hs] at h
  · cases h; exact hinv
  · exact exec_command_inv (s := { s with port := rest }) (decode_command hd) h hinv
  · cases h; exact hinv.imp_right fun ⟨hparser, hslots, _⟩ => ⟨hparser, hslots, rfl⟩

end Sys2Proof.Machine
end

section
/-! PROOF. The family of 20_memory.md: the bit order of the CRC, the isolation of transfers, duplicates, and which
commands read and write which part of the state. -/

namespace Sys2Proof.Machine

open Sys2Proof

/-! ### The bit order of the CRC -/

/-- One bit of the bit-serial form: bit `i` of `b` is compared with the top bit of the accumulator. -/
def crcTurn (b : Byte) (c : U16) (i : Nat) : U16 :=
  if c.msb != b.getLsbD i then (c <<< 1) ^^^ 0x1021 else c <<< 1

/-- A byte shifted up so that its bit `n` is the top bit. -/
theorem msb_setWidth_shiftLeft (b : Byte) {n : Nat} (hn : n < 8) :
    (b.setWidth 16 <<< (15 - n)).msb = b.getLsbD n := by
  have hsub : 15 - (15 - n) = n := by omega
  have hle : ¬ 15 < 15 - n := by omega
  simp [BitVec.msb_eq_getLsbD_last, hsub, hle]

/-- One turn of R100 with the byte's bit `n` at the top takes that bit in and moves the bits below it up. -/
theorem crcShift_xor_byte (b : Byte) (c : U16) {n : Nat} (hn : n < 8) :
    crcShift (c ^^^ (b.setWidth 16 <<< (15 - n))) = crcTurn b c n ^^^ (b.setWidth 16 <<< (16 - n)) := by
  have hup : (b.setWidth 16 <<< (15 - n)) <<< 1 = b.setWidth 16 <<< (16 - n) := by
    rw [← BitVec.shiftLeft_add, show 15 - n + 1 = 16 - n by omega]
  rw [crcShift, crcTurn, BitVec.msb_xor, msb_setWidth_shiftLeft b hn, BitVec.shiftLeft_xor_distrib, hup,
    Bool.bne_eq_xor]
  split
  · rw [BitVec.xor_assoc, BitVec.xor_assoc, BitVec.xor_comm Config.crcPoly]
  · rfl

/-- The last `n` turns of R100 take in the byte's low `n` bits, the highest first. -/
theorem crcShifts_xor_byte (b : Byte) (c : U16) {n : Nat} (hn : n ≤ 8) :
    crcShifts n (c ^^^ (b.setWidth 16 <<< (16 - n))) = (List.range n).reverse.foldl (crcTurn b) c := by
  induction n generalizing c with
  | zero => simp [crcShifts, BitVec.shiftLeft_eq_zero]
  | succ n ih =>
    rw [crcShifts, show 16 - (n + 1) = 15 - n by omega, crcShift_xor_byte b c (by omega), ih _ (by omega),
      List.range_succ, List.reverse_append]
    rfl

/-- Settles O16: the eight turns of R100 on the accumulator with the byte XORed into its top (`crcShifts_xor_byte`). -/
theorem crcStepIsBitSerial : Obligations.CrcStepIsBitSerial := fun crc b => crcShifts_xor_byte b crc le_rfl

/-! ### The isolation of transfers -/

/-- The id a chunk carries is that of the segment read from it. -/
theorem rsmParse_tid_of_carriesId {tid : Byte} {d : Bytes} {g : Segment} (hc : carriesId tid d = true)
    (hg : rsmParse d = some g) : g.tid = tid := by
  rw [carriesId, rsmParse_tid hg] at hc
  simpa using hc

/-- R194 and R195 read the configuration, the slot and the index of the free draws, and nothing else. -/
theorem rsmWrite_congr {s s' : State} (hcfg : s.cfg = s'.cfg) (hdraw : s.readouts = s'.readouts) (g : Segment)
    (x : Slot) : (rsmWrite s g x).1.slot g.tid = (rsmWrite s' g x).1.slot g.tid ∧
      (rsmWrite s g x).2 = (rsmWrite s' g x).2 := by
  simp only [rsmWrite, hcfg, hdraw]
  split
  · exact ⟨(s.setSlot_slot_self g.tid _).trans (s'.setSlot_slot_self g.tid _).symm, rfl⟩
  · exact ⟨(s.setSlot_slot_self g.tid _).trans (s'.setSlot_slot_self g.tid _).symm, rfl⟩

/-- `rsm_accept` reads the configuration, the slot of the segment's id and the index of the free draws, and nothing
else. -/
theorem rsmAccept_congr {tid : Byte} {d : Bytes} {s s' : State} (hc : carriesId tid d = true) (hcfg : s.cfg = s'.cfg)
    (hslot : s.slot tid = s'.slot tid) (hdraw : s.readouts = s'.readouts) :
    (rsmAccept s d).1.slot tid = (rsmAccept s' d).1.slot tid ∧ (rsmAccept s d).2 = (rsmAccept s' d).2 := by
  unfold rsmAccept
  cases hp : rsmParse d with
  | none => exact ⟨hslot, rfl⟩
  | some g =>
    obtain rfl := rsmParse_tid_of_carriesId hc hp
    simp only [hcfg, hslot]
    split
    · exact ⟨hslot, rfl⟩
    · exact rsmWrite_congr hcfg hdraw g _

/-- Settles O40: RSM_ACCEPT stores and answers what `rsm_accept` gives (`rsmAccept_congr`). -/
theorem transfersAreIsolated : Obligations.TransfersAreIsolated := by
  intro tid d s t s' t' hc hcfg hslot hdraw h h'
  obtain ⟨hslots, hres⟩ := rsmAccept_congr hc hcfg hslot hdraw
  obtain ⟨-, -, -, -, -, -, hold⟩ := rsmAccept_frame s d
  obtain ⟨-, -, -, -, -, -, hold'⟩ := rsmAccept_frame s' d
  rw [exec_rsmAccept] at h h'
  cases h
  cases h'
  exact ⟨hslots, by simp [hold, hold', hres]⟩

/-! ### Duplicates -/

/-- Refused data changes nothing (R191, R192). -/
theorem rsmAccept_of_refuses {s : State} {d : Bytes} (h : Refuses s d) : rsmAccept s d = (s, .notSegmented) := by
  rcases rsmAccept_cases s d with ⟨-, hx⟩ | ⟨g, hg, hm, -⟩
  · exact hx
  · rcases h with h | ⟨g', hg', hm'⟩
    · rw [hg] at h; cases h
    · rw [hg] at hg'; cases hg'; exact absurd hm' hm

/-- `rsm_accept` leaves the slot of the segment's id active by refusing the data or by the write of R194. -/
theorem rsmAccept_slot_active {tid : Byte} {d : Bytes} {s : State} (hc : carriesId tid d = true)
    (ha : ((rsmAccept s d).1.slot tid).active = true) :
    Refuses s d ∨ ∃ g, rsmParse d = some g ∧ g.tid = tid ∧ (rsmAccept s d).1.slot tid = written s g := by
  rcases rsmAccept_cases s d with ⟨hr, -⟩ | ⟨g, hg, -, ⟨-, hx⟩ | ⟨-, hx⟩⟩
  · exact .inl hr
  · obtain rfl := rsmParse_tid_of_carriesId hc hg
    exact .inr ⟨g, hg, rfl, by rw [hx, State.setSlot_slot_self]⟩
  · obtain rfl := rsmParse_tid_of_carriesId hc hg
    rw [hx] at ha
    change ((s.setSlot g.tid Slot.reset).slot g.tid).active = true at ha
    rw [State.setSlot_slot_self] at ha
    cases ha

/-- A segment written to the slot that already holds its bytes leaves the buffer and the total as they were. -/
theorem written_again {s t : State} {d : Bytes} {g : Segment} (hg : rsmParse d = some g)
    (hi : (s.slot g.tid).Inv s.cfg.mode) (ht : t.slot g.tid = written s g) :
    (written t g).buf = (written s g).buf ∧ (written t g).total = (written s g).total := by
  obtain ⟨hactive, htotal, -⟩ := written_spec hg hi
  obtain ⟨-, -, hwf, -⟩ := Slot.opened_spec (g := g) hi
  have hopened : (t.slot g.tid).opened g = written s g := by
    rw [ht, Slot.opened, if_pos ⟨hactive, by simp [Slot.mismatch, htotal]⟩]
  rw [written, hopened]
  exact ⟨Memory.writeBytes_idem g.off.toNat g.chunk hwf, rfl⟩

/-- Settles O41: refused data is refused again, and a segment that was written finds its own bytes in the buffer
(`written_again`). -/
theorem duplicatesRewriteTheSameBytes : Obligations.DuplicatesRewriteTheSameBytes := by
  intro tid d s t u hc hi ht hta hu hua
  rw [exec_rsmAccept] at ht hu
  cases ht
  cases hu
  rw [State.respond_slot] at hta hua
  simp only [State.respond_slot]
  rcases rsmAccept_slot_active hc hua with hr | ⟨g, hg, rfl, hu⟩
  · rw [rsmAccept_of_refuses hr]
    exact ⟨rfl, rfl⟩
  rcases rsmAccept_slot_active hc hta with hr | ⟨g', hg', -, ht⟩
  · rw [rsmAccept_of_refuses hr, rsmAccept_of_refuses (s := s.respond _) hr]
    exact ⟨rfl, rfl⟩
  · rw [hg] at hg'
    cases hg'
    rw [hu, ht]
    exact written_again hg hi ht

/-! ### The commands without state -/

/-- An answer writes no part of the block. -/
theorem State.answer_sameBlock (s : State) (p : Bytes) : s.SameBlock (s.answer p) := ⟨rfl, rfl, rfl, rfl, rfl⟩

theorem State.answer_answered (s : State) (p : Bytes) : s.Answered (s.answer p) p := ⟨rfl, rfl, rfl⟩

/-- The response of each transmit command and of CRC_COMPUTE, from the configuration and the operands. -/
def transmitAnswer (c : Config) : Instr → Option Bytes
  | .crcCompute h d => some (0x00 :: u16Bytes (compute d h))
  | .frmEncode d =>
    some (if d.length = 0 ∨ c.maxPayload.toNat < d.length then [0x01] else 0x00 :: blobBytes (encodeFrame d))
  | .segSplit tid d => some (0x00 :: listBytes (split c tid d))
  | .segSplitRaw d => some (0x00 :: listBytes (splitRaw c d))
  | .txSegmented tid d => some (0x00 :: listBytes ((split c tid d).map encodeFrame))
  | .txRaw d => some (0x00 :: listBytes ((splitRaw c d).map encodeFrame))
  | _ => none

/-- A transmit command and CRC_COMPUTE give their response and do nothing else. -/
theorem exec_of_transmitAnswer {i : Instr} {s : State} {r : Bytes} (h : transmitAnswer s.cfg i = some r) :
    exec i s = .next (s.answer r) := by
  cases i
  case frmEncode d =>
    cases h
    rcases exec_frmEncode_cases d s with ⟨hd, hx⟩ | ⟨hd, hx⟩ <;> rw [hx]
    · rw [if_pos hd]; rfl
    · rw [if_neg (by omega)]; rfl
  case crcCompute | segSplit | segSplitRaw | txSegmented | txRaw => cases h; rfl
  all_goals cases h

/-- Settles O50: each of the eight commands ends in an answer on the state it started in. -/
theorem pureCommandsWriteNothing : Obligations.PureCommandsWriteNothing := by
  intro s i hi
  have hanswer : ∃ r, exec i s = .next (s.answer r) := by
    rcases hi with ⟨init, d, rfl⟩ | ⟨d, rfl⟩ | ⟨tid, d, rfl⟩ | ⟨d, rfl⟩ | ⟨tid, d, rfl⟩ | ⟨d, rfl⟩ |
      ⟨tid, rfl⟩ | ⟨a, rfl⟩
    rotate_left 6
    · exact ⟨_, rfl⟩
    · rcases exec_regRead_cases a s with ⟨v, -, hx⟩ | ⟨-, hx⟩ <;> exact ⟨_, hx⟩
    all_goals exact ⟨_, exec_of_transmitAnswer rfl⟩
  obtain ⟨r, hr⟩ := hanswer
  exact ⟨_, r, hr, s.answer_sameBlock r, rfl, s.answer_answered r⟩

/-- Settles O51: the response is a function of the configuration and the operands (`transmitAnswer`). -/
theorem transmitCommandsReadNothing : Obligations.TransmitCommandsReadNothing := by
  intro s s' t t' i hi hcfg h h'
  have hanswer : ∃ r, transmitAnswer s.cfg i = some r := by
    rcases hi with ⟨init, d, rfl⟩ | ⟨d, rfl⟩ | ⟨tid, d, rfl⟩ | ⟨d, rfl⟩ | ⟨tid, d, rfl⟩ | ⟨d, rfl⟩ <;>
      exact ⟨_, rfl⟩
  obtain ⟨r, hr⟩ := hanswer
  rw [exec_of_transmitAnswer hr] at h
  rw [exec_of_transmitAnswer (hcfg ▸ hr)] at h'
  cases h
  cases h'
  simp

/-! ### The receive commands and CRC_ACC -/

/-- A transition runs the same with any value in CRC_ACC. -/
theorem runTransition_withCrcAcc (t : Transition) (b : Byte) (s : State) (acc : U16) :
    runTransition t b { s with crcAcc := acc } = { runTransition t b s with crcAcc := acc } := by
  cases t <;> rfl

/-- R194 and R195 run the same with any value in CRC_ACC. -/
theorem rsmWrite_withCrcAcc (s : State) (g : Segment) (x : Slot) (acc : U16) :
    rsmWrite { s with crcAcc := acc } g x = ({ (rsmWrite s g x).1 with crcAcc := acc }, (rsmWrite s g x).2) := by
  simp only [rsmWrite]
  split <;> rfl

/-- `rsm_accept` runs the same with any value in CRC_ACC. -/
theorem rsmAccept_withCrcAcc (s : State) (d : Bytes) (acc : U16) :
    rsmAccept { s with crcAcc := acc } d = ({ (rsmAccept s d).1 with crcAcc := acc }, (rsmAccept s d).2) := by
  unfold rsmAccept
  cases rsmParse d with
  | none => rfl
  | some g =>
    have hslot : State.slot { s with crcAcc := acc } g.tid = s.slot g.tid := rfl
    simp only [hslot]
    split
    · rfl
    · exact rsmWrite_withCrcAcc s g _ acc

/-- Settles O52: the row of R93 that is taken does not depend on CRC_ACC, and what runs after it gives the same with any
value there (`runTransition_withCrcAcc`, `rsmAccept_withCrcAcc`). -/
theorem receivePathIgnoresCrcAcc : Obligations.ReceivePathIgnoresCrcAcc := by
  intro s t acc i hi h
  rcases hi with ⟨b, rfl⟩ | ⟨b, rfl⟩ | ⟨d, rfl⟩ | rfl | rfl
  · rcases exec_prsFeed_cases b s with ⟨u, hr, hx⟩ | ⟨-, hx⟩ <;> rw [hx] at h <;> cases h
    rw [exec_prsFeed_of_row (s := { s with crcAcc := acc }) hr, runTransition_withCrcAcc]
    rfl
  · rcases exec_rxByte_cases b s with ⟨u, hr, hne, hx⟩ | ⟨hr, hx⟩ | ⟨-, hx⟩ <;> rw [hx] at h <;> cases h
    · rw [exec_rxByte_of_row (s := { s with crcAcc := acc }) hr hne, runTransition_withCrcAcc]
      rfl
    · rw [exec_rxByte_match (s := { s with crcAcc := acc }) hr]
      have hmatch : crcMatch b { s with crcAcc := acc } = { crcMatch b s with crcAcc := acc } := rfl
      rw [hmatch, rsmAccept_withCrcAcc]
      rfl
  · rw [exec_rsmAccept] at h ⊢
    cases h
    rw [rsmAccept_withCrcAcc]
    rfl
  · cases h; rfl
  · cases h; rfl

end Sys2Proof.Machine
end

section
/-! PROOF. The family of 30_encoding.md: packets and decode keys are read back as what they were written for, every
packet gets one response, and of the parser transitions exactly one applies to a byte and the others are stuck. -/

namespace Sys2Proof.Machine

open Sys2Proof

/-! ### Packets are read back -/

theorem operands2_u16Bytes (f : U16 → Instr) (h : U16) : operands2 (u16Bytes h) f = .instr (f h) :=
  congrArg (fun v => Decoded.instr (f v)) (be16_hi8_lo8 h)

theorem operandsB_blobBytes (f : Bytes → Instr) {d : Bytes} (hd : blobFits d = true) :
    operandsB (blobBytes d) f = .instr (f d) := by
  rw [operandsB, blobOf_blobBytes (Laws.PacketLength.fits hd)]

theorem operands1B_blobBytes (f : Byte → Bytes → Instr) (a : Byte) {d : Bytes} (hd : blobFits d = true) :
    operands1B (a :: blobBytes d) f = .instr (f a d) := operandsB_blobBytes (f a) hd

theorem operands2B_blobBytes (f : U16 → Bytes → Instr) (h : U16) {d : Bytes} (hd : blobFits d = true) :
    operands2B (u16Bytes h ++ blobBytes d) f = .instr (f h d) :=
  (congrArg (fun v => operandsB (blobBytes d) (f v)) (be16_hi8_lo8 h)).trans (operandsB_blobBytes (f h) hd)

/-- Settles O2: the packet's opcode byte names the command (`decode_cons`), and the operand reader of the command's
format undoes what the encoder wrote behind it; a transition has no packet. -/
theorem commandPacketsRoundTrip : Obligations.CommandPacketsRoundTrip := by
  intro i p hw hp
  cases i <;> cases hp <;> refine (decode_cons rfl _).trans ?_
  case prsReset | rsmClear | coreReset | crcStep | prsFeed | rxByte | rsmStatus | regRead => rfl
  case crcInit h => exact operands2_u16Bytes _ h
  case frmEncode | segSplitRaw | txRaw | rsmAccept => exact operandsB_blobBytes _ hw
  case segSplit tid d | txSegmented tid d => exact operands1B_blobBytes _ tid hw
  case crcCompute h d => exact operands2B_blobBytes _ h hw

/-- What a command's operand reader accepts is what the encoder writes behind its opcode byte. -/
theorem encode_of_operands {o : Opcode} {rest : Bytes} {i : Instr} (h : o.operands rest = .instr i) :
    encode i = .packet (o.byte :: rest) ∧ i.wellFormed = true := by
  cases o
  case prsReset | rsmClear | coreReset =>
    obtain ⟨rfl, rfl⟩ := operands0_eq_instr h
    exact ⟨rfl, rfl⟩
  case crcStep | prsFeed | rxByte | rsmStatus | regRead =>
    obtain ⟨a, rfl, rfl⟩ := operands1_eq_instr h
    exact ⟨rfl, rfl⟩
  case crcInit =>
    obtain ⟨a, rfl, rfl⟩ := operands2_eq_instr h
    exact ⟨rfl, rfl⟩
  case frmEncode | segSplitRaw | txRaw | rsmAccept =>
    obtain ⟨d, rfl, hd, rfl⟩ := operandsB_eq_instr h
    exact ⟨rfl, decide_eq_true hd⟩
  case segSplit | txSegmented =>
    obtain ⟨a, d, rfl, hd, rfl⟩ := operands1B_eq_instr h
    exact ⟨rfl, decide_eq_true hd⟩
  case crcCompute =>
    obtain ⟨a, d, rfl, hd, rfl⟩ := operands2B_eq_instr h
    exact ⟨rfl, decide_eq_true hd⟩

/-- Settles O3: a packet that decodes is an assigned opcode byte and the operands its reader accepts
(`decode_cases`, `encode_of_operands`). -/
theorem decodedPacketsReencode : Obligations.DecodedPacketsReencode := by
  intro p i h
  rcases decode_cases p with ⟨-, hd⟩ | ⟨op, rest, -, -, hd⟩ | ⟨o, rest, rfl, hd⟩ <;> rw [hd] at h
  · cases h
  · cases h
  · exact encode_of_operands h

/-! ### Decode keys are read back -/

/-- The key of a transition is the code of the state its row stands under, and the byte. -/
theorem encode_transition {t : Transition} {b : Byte} (hb : t = .syncHit → b = 0xAA) :
    encode (t.instr b) = .key t.state.code b := by
  cases t
  case syncHit => rw [hb rfl]; rfl
  all_goals rfl

theorem state_eq_of_row {t : Transition} {s : State} {b : Byte} (h : t.Row s b) :
    t.state = s.parser.state := by
  have happlies := (applies_iff_row t s b).mpr h
  rw [Transition.applies, Bool.and_eq_true, beq_iff_eq] at happlies
  exact happlies.1

theorem byte_eq_of_row {t : Transition} {s : State} {b : Byte} (h : t.Row s b)
    (ht : t = .syncHit) : b = 0xAA := by
  subst ht
  exact h.2

/-- The byte decode selects the transition whose row of R93 holds. -/
theorem decodeByte_of_row {t : Transition} {s : State} {b : Byte} (h : t.Row s b) :
    decodeByte s.keyContext b = some t := decodeByte_of_applies ((applies_iff_row t s b).mpr h)

/-- Settles O4: the row's state is the parser's (`state_eq_of_row`), so the key decodes by the byte decode of the parser
itself, which selects the row. -/
theorem decodeKeysRoundTrip : Obligations.DecodeKeysRoundTrip := by
  intro t s b h
  have hkey : decodeKey s.keyContext s.parser.state.code b = (decodeByte s.keyContext b).map fun u => u.instr b :=
    decodeKey_state s.keyContext b
  refine ⟨_, encode_transition (byte_eq_of_row h), by rw [state_eq_of_row h], ?_⟩
  rw [state_eq_of_row h, hkey, decodeByte_of_row h, Option.map_some]

/-- Settles O1: the decoders are run on each of the words. -/
theorem exampleWordsDecode : Obligations.ExampleWordsDecode := by
  unfold Obligations.ExampleWordsDecode
  decide

/-! ### Responses -/

/-- Settles O9: a packet that decodes is a command, which completes under the parser's invariants and answers once;
a packet that does not is answered with its status. -/
theorem everyCommandGetsOneResponse : Obligations.EveryCommandGetsOneResponse := by
  intro s p rest hinv hport
  have hstep := step_of_port hport
  cases hd : decode p with
  | instr i =>
    rw [hd] at hstep
    obtain ⟨-, hparser, -⟩ := hinv
    have hcommand := decode_command hd
    obtain ⟨t, ht⟩ := exec_command_completes (s := { s with port := rest }) hcommand hparser
    obtain ⟨htport, -, -, r, hr, hform⟩ := exec_command_answers hcommand ht
    refine ⟨t, r, hstep.trans ht, htport, hr, ?_⟩
    rcases hform with hok | ⟨hinvalid, -⟩
    · exact .inr (.inr (.inr hok))
    · exact .inl hinvalid
  | reject why =>
    rw [hd] at hstep
    refine ⟨_, [statusByte why], hstep, rfl, rfl, ?_⟩
    cases why <;> decide

/-! ### The rows of the byte decode -/

/-- Settles O23: a transition's own guard is its row of R93 (`exec_transition_stuck`). -/
theorem transitionsStopOutsideTheirRow : Obligations.TransitionsStopOutsideTheirRow :=
  fun _ _ _ hb hrow => exec_transition_stuck hb hrow

/-- Settles O24: the invariants give a row that holds (`row_exists`), and two rows that hold are both what the byte
decode selects. -/
theorem exactlyOneTransitionApplies : Obligations.ExactlyOneTransitionApplies := by
  intro s b hinv
  obtain ⟨t, ht⟩ := row_exists hinv b
  have hunique : ∀ u : Transition, u.Row s b → u = t := fun u hu =>
    Option.some.inj ((decodeByte_of_row hu).symm.trans (decodeByte_of_row ht))
  exact ⟨t, ht, hunique, decodeByte_of_row ht, _, exec_transition ht⟩

end Sys2Proof.Machine
end

section
/-! PROOF. The family of 40_crc.md: the CRC commands, and the laws of `compute` that R106 lists. -/

namespace Sys2Proof.Machine

/-! ### Chunking and residue -/

theorem compute_append (s t : Bytes) (i : U16) : compute (s ++ t) i = compute t (compute s i) := by
  induction s generalizing i with
  | nil => rfl
  | cons b s ih => exact ih (crcStep i b)

theorem xor_hi8_shiftLeft (c : U16) : c ^^^ ((hi8 c).setWidth 16 <<< 8) = (lo8 c).setWidth 16 := by
  ext i hi
  by_cases h : i < 8
  · simp [hi8, lo8, h, BitVec.getLsbD_eq_getElem hi]
  · have hlow : i - 8 < 8 := by omega
    have hback : 8 + (i - 8) = i := by omega
    simp [hi8, lo8, h, hlow, hback, BitVec.getLsbD_eq_getElem hi]

/-- A byte that has not reached the top bit is shifted without the polynomial. -/
theorem crcShift_setWidth_shiftLeft (b : Byte) {k : Nat} (hk : k < 8) :
    crcShift (b.setWidth 16 <<< k) = b.setWidth 16 <<< (k + 1) := by
  have hmsb : (b.setWidth 16 <<< k).msb = false := by
    rw [BitVec.msb_shiftLeft]
    simp [BitVec.getMsbD, BitVec.getLsbD_of_ge b (15 - k) (by omega)]
  rw [crcShift, hmsb, BitVec.shiftLeft_add]
  rfl

/-- `n` turns move a byte up `n` places while it stays within the word. -/
theorem crcShifts_setWidth_shiftLeft (b : Byte) {n k : Nat} (h : k + n ≤ 8) :
    crcShifts n (b.setWidth 16 <<< k) = b.setWidth 16 <<< (k + n) := by
  induction n generalizing k with
  | zero => rfl
  | succ n ih =>
    rw [crcShifts, crcShift_setWidth_shiftLeft b (by omega), ih (by omega), Nat.add_right_comm]
    rfl

/-- The accumulator's own high byte cancels the top of the accumulator and leaves its low byte there. -/
theorem crcStep_hi8 (c : U16) : crcStep c (hi8 c) = (lo8 c).setWidth 16 <<< 8 := by
  rw [crcStep, xor_hi8_shiftLeft]
  simpa using crcShifts_setWidth_shiftLeft (n := 8) (k := 0) (lo8 c) le_rfl

/-- The accumulator's own two bytes, high byte first, take it to 0. -/
theorem compute_u16Bytes_self (c : U16) : compute (u16Bytes c) c = 0 := by
  rw [u16Bytes, compute_cons, compute_cons, compute_nil, crcStep_hi8, crcStep, BitVec.xor_self]
  rfl

/-! ### The bijection of the accumulator -/

/-- The polynomial is odd, so bit 0 after a turn is the bit shifted out. -/
theorem crcShift_getLsbD_zero (c : U16) : (crcShift c).getLsbD 0 = c.msb := by
  by_cases h : c.msb <;> simp [crcShift, h]

/-- A turn forgets nothing: the bit shifted out is kept in bit 0, and says whether the polynomial was XORed in. -/
theorem crcShift_injective : Function.Injective crcShift := by
  intro c d h
  have hmsb : c.msb = d.msb := by rw [← crcShift_getLsbD_zero, h, crcShift_getLsbD_zero]
  have hshift : c <<< 1 = d <<< 1 := by
    rw [crcShift, crcShift, hmsb] at h
    split at h
    · exact (BitVec.xor_left_inj _).mp h
    · exact h
  rw [BitVec.msb_eq_decide, BitVec.msb_eq_decide, decide_eq_decide] at hmsb
  bv_omega

theorem crcShifts_injective (n : Nat) : Function.Injective (crcShifts n) := by
  induction n with
  | zero => exact Function.injective_id
  | succ n ih => exact ih.comp crcShift_injective

theorem crcStep_bijective (b : Byte) : Function.Bijective fun c : U16 => crcStep c b :=
  Finite.injective_iff_bijective.mp ((crcShifts_injective 8).comp fun _ _ => (BitVec.xor_left_inj _).mp)

/-- Settles O17: chunking (`compute_append`), the empty sequence, the residue, as the CRC's own bytes take the
accumulator to 0 (`compute_u16Bytes_self`), and a step that is injective turn by turn (`crcStep_bijective`). -/
theorem lawsOfCompute : Obligations.LawsOfCompute :=
  ⟨compute_append, compute_nil, fun s i => (compute_append s _ i).trans (compute_u16Bytes_self (compute s i)),
    crcStep_bijective⟩

/-! ### The commands -/

/-- Settles O13: the row of the opcode map for 01 reads format F2, and the command is R102's. -/
theorem crcInitLoadsAccumulator : Obligations.CrcInitLoadsAccumulator :=
  ⟨FormatF2.of_operands .crcInit fun _ => rfl, fun _ _ => rfl⟩

/-- Settles O14: the row of the opcode map for 02 reads format F1, and the command is R103's. -/
theorem crcStepAdvancesAccumulator : Obligations.CrcStepAdvancesAccumulator :=
  ⟨FormatF1.of_operands .crcStep fun _ => rfl, fun _ _ => rfl⟩

/-- Settles O15: the row of the opcode map for 03 reads format F2B, and the command is R104's. -/
theorem crcComputeAnswersCrc : Obligations.CrcComputeAnswersCrc :=
  ⟨FormatF2B.of_operands .crcCompute fun _ => rfl, fun _ _ _ => rfl⟩

end Sys2Proof.Machine
end

section
/-! PROOF. The family of 41_frame_codec.md: FRM_ENCODE, and that the bytes of an encoded frame, fed to the hunting
parser, give back its payload. -/

namespace Sys2Proof.Machine

open Sys2Proof

/-- Settles O18: the row of the opcode map for 10 reads format FB; a legal payload and an illegal one are the two cases
of FRM_ENCODE (`exec_frmEncode_cases`), and the BLOB that holds a frame has its length (`encodeFrame_length`). -/
theorem frmEncodeAnswersFrame : Obligations.FrmEncodeAnswersFrame := by
  refine ⟨FormatFB.of_operands .frmEncode fun _ => rfl, fun d s hpos hmax => ?_, fun d s hbad => ?_⟩
  · rcases exec_frmEncode_cases d s with ⟨hbad, -⟩ | ⟨-, hx⟩
    · omega
    · rw [hx, blobBytes, encodeFrame_length]
      rfl
  · rcases exec_frmEncode_cases d s with ⟨-, hx⟩ | ⟨hlegal, -⟩
    · exact hx
    · omega

/-! ### Feeding the bytes of a frame -/

/-- `s` after `n` bytes that completed no frame and counted nothing: the parser holds `p`, and every byte was answered
00 00. -/
def State.fed (s : State) (p : Parser) (n : Nat) : State :=
  { s with parser := p, event := none, responses := s.responses ++ List.replicate n [0x00, 0x00] }

/-- One more such byte, on which the transition `t` moves the parser from `p` to `q`. -/
theorem exec_prsFeed_fed {t : Transition} {b : Byte} {s : State} {p q : Parser} {n : Nat} (hrow : t.Row (s.fed p n) b)
    (hrun : runTransition t b (s.fed p n) = s.fed q n) :
    exec (.prsFeed b) (s.fed p n) = .next (s.fed q (n + 1)) := by
  have hanswer : (s.fed q n).respond [0x00] = s.fed q (n + 1) := by
    rw [State.fed, State.fed, List.replicate_succ', ← List.append_assoc]
    rfl
  rw [exec_prsFeed_of_row hrow, hrun]
  exact congrArg _ hanswer

/-- The parser inside a frame, after the length byte `len` and the data bytes `acc`, with `hi` in P_CRCHI: its CRC is
the one over both, as the invariants of R30 say. -/
def Parser.inFrame (st : PState) (len : Byte) (acc : Bytes) (hi : Byte) : Parser :=
  { state := st, crc := compute (len :: acc) Config.crcInitFrame, len := len, acc := acc, crcHi := hi }

/-- What R144 and R145 do inside a frame: one more data byte. -/
theorem Parser.inFrame_concat (st st' : PState) (len : Byte) (acc : Bytes) (hi b : Byte) :
    { Parser.inFrame st len acc hi with
      state := st', acc := acc ++ [b], crc := crcStep (Parser.inFrame st len acc hi).crc b } =
      Parser.inFrame st' len (acc ++ [b]) hi := by
  simp only [Parser.inFrame, ← List.cons_append, compute_concat]

/-- From SYNC, the sync byte and a legal length (R141, R143). -/
theorem execAll_prsFeed_header {s : State} {len : Byte} (hsync : s.parser.state = .sync) (hpos : 1 ≤ len.toNat)
    (hmax : len.toNat ≤ s.cfg.maxPayload.toNat) :
    execAll ([Config.syncByte, len].map .prsFeed) s = .next (s.fed (.inFrame .data len [] s.parser.crcHi) 2) := by
  have hhit : exec (.prsFeed Config.syncByte) s =
      .next (s.fed { s.parser with state := .len, crc := Config.crcInitFrame, acc := [] } 1) :=
    exec_prsFeed_of_row (t := .syncHit) ⟨hsync, rfl⟩
  exact (execAll_cons_next hhit).trans (execAll_cons_next (exec_prsFeed_fed (t := .lenOk) ⟨rfl, hpos, hmax⟩ rfl))

/-- In DATA, all the data bytes that are still to come (R144, R145). -/
theorem execAll_prsFeed_payload {p : Bytes} (hne : p ≠ []) (s : State) {len : Byte} (hi : Byte) {acc : Bytes}
    (n : Nat) (hlen : acc.length + p.length = len.toNat) :
    execAll (p.map .prsFeed) (s.fed (.inFrame .data len acc hi) n) =
      .next (s.fed (.inFrame .crcHi len (acc ++ p) hi) (n + p.length)) := by
  induction p generalizing acc n with
  | nil => exact absurd rfl hne
  | cons b rest ih =>
    cases rest with
    | nil =>
      exact execAll_cons_next (exec_prsFeed_fed (t := .dataLast) ⟨rfl, hlen⟩
        (congrArg (s.fed · n) (Parser.inFrame_concat .data .crcHi len acc hi b)))
    | cons c rest =>
      simp only [List.length_cons] at hlen
      have hmore : acc.length + 1 < len.toNat := by omega
      have hbyte : exec (.prsFeed b) (s.fed (.inFrame .data len acc hi) n) =
          .next (s.fed (.inFrame .data len (acc ++ [b]) hi) (n + 1)) :=
        exec_prsFeed_fed (t := .data) ⟨rfl, hmore⟩
          (congrArg (s.fed · n) (Parser.inFrame_concat .data .data len acc hi b))
      rw [List.map_cons, execAll_cons_next hbyte, ih (List.cons_ne_nil c rest) _ (by simp; omega)]
      simp [Nat.add_assoc, Nat.add_comm 1]

/-- From SYNC, a frame up to and including its CRC's high byte, whatever that byte is (R146): the parser waits for the
last byte. -/
theorem execAll_prsFeed_before_last {s : State} {p : Bytes} (hi : Byte) (hsync : s.parser.state = .sync)
    (hpos : 1 ≤ p.length) (hmax : p.length ≤ s.cfg.maxPayload.toNat) :
    execAll (([Config.syncByte, BitVec.ofNat 8 p.length] ++ p ++ [hi]).map .prsFeed) s =
      .next (s.fed (.inFrame .crcLo (BitVec.ofNat 8 p.length) p hi) (p.length + 3)) := by
  have hlen : (BitVec.ofNat 8 p.length).toNat = p.length :=
    Nat.mod_eq_of_lt (hmax.trans_lt s.cfg.maxPayload.isLt)
  have hheader := execAll_prsFeed_header (len := BitVec.ofNat 8 p.length) hsync (by omega) (by omega)
  have hpayload := execAll_prsFeed_payload (List.length_pos_iff.mp hpos) s s.parser.crcHi 2 (acc := [])
    ((Nat.zero_add _).trans hlen.symm)
  have hcount : p.length + 3 = 2 + p.length + 1 := by omega
  rw [List.append_assoc, List.map_append, execAll_append_next hheader, List.map_append, execAll_append_next hpayload,
    hcount]
  exact execAll_cons_next (exec_prsFeed_fed (t := .crcHi) rfl rfl)

/-- The CRC that a frame of payload `p` carries (R70, R72). -/
def frameCrc (p : Bytes) : U16 := compute (BitVec.ofNat 8 p.length :: p) Config.crcInitFrame

/-- A frame with its last byte apart. -/
theorem encodeFrame_eq_concat (p : Bytes) :
    encodeFrame p = [Config.syncByte, BitVec.ofNat 8 p.length] ++ p ++ [hi8 (frameCrc p)] ++ [lo8 (frameCrc p)] := by
  rw [List.append_assoc]
  rfl

/-- Settles O27: all bytes but the last complete no frame (`execAll_prsFeed_before_last`), and the last is the low byte
of the CRC that the parser has computed, so R147 applies. -/
theorem encodedFramesAreDecoded : Obligations.EncodedFramesAreDecoded := by
  intro s p hsync hpos hmax
  have hmatch : Transition.crcMatch.Row
      (s.fed (.inFrame .crcLo (BitVec.ofNat 8 p.length) p (hi8 (frameCrc p))) (p.length + 3)) (lo8 (frameCrc p)) :=
    ⟨rfl, be16_hi8_lo8 (frameCrc p)⟩
  have hbytes := congrArg (List.map Instr.prsFeed) (encodeFrame_eq_concat p)
  rw [hbytes, List.map_append, execAll_append_next (execAll_prsFeed_before_last _ hsync hpos hmax)]
  exact execAll_cons_next (exec_prsFeed_of_row hmatch)

end Sys2Proof.Machine
end

section
/-! PROOF. The family of 42_stream_parser.md: what each transition does, PRS_FEED and PRS_RESET, and what byte streams
give: frames behind noise, a frame with a wrong CRC, and a second sync byte in the place of the length. -/

namespace Sys2Proof.Machine

open Sys2Proof

/-! ### The transitions and the commands -/

/-- Settles O19: both transitions run where their row holds (`exec_transition`), with the effects of R140 and R141. -/
theorem huntingTransitions : Obligations.HuntingTransitions :=
  ⟨fun _ _ hsync hb => exec_transition (t := .syncDrop) ⟨hsync, hb⟩,
    fun _ hsync => exec_transition (t := .syncHit) ⟨hsync, rfl⟩⟩

/-- Settles O20: both transitions run where their row holds (`exec_transition`), with the effects of R142 and R143. -/
theorem lengthTransitions : Obligations.LengthTransitions :=
  ⟨fun _ _ hlen hbad => exec_transition (t := .lenBad) ⟨hlen, hbad⟩,
    fun _ _ hlen hpos hmax => exec_transition (t := .lenOk) ⟨hlen, hpos, hmax⟩⟩

/-- Settles O21: both transitions run where their row holds (`exec_transition`), with the effects of R144 and R145. -/
theorem dataTransitions : Obligations.DataTransitions :=
  ⟨fun b _ hdata hmore => exec_transition (t := .data) (b := b) ⟨hdata, hmore⟩,
    fun b _ hdata hlast => exec_transition (t := .dataLast) (b := b) ⟨hdata, hlast⟩⟩

/-- Settles O22: the three transitions run where their row holds (`exec_transition`), with the effects of R146 to
R148. -/
theorem crcTransitions : Obligations.CrcTransitions :=
  ⟨fun b _ hhi => exec_transition (t := .crcHi) (b := b) hhi,
    fun _ _ hlo hcrc => exec_transition (t := .crcMatch) ⟨hlo, hcrc⟩,
    fun _ _ hlo hcrc => exec_transition (t := .crcMismatch) ⟨hlo, hcrc⟩⟩

/-- Settles O25: the row of the opcode map for 20 reads format F1; the transition and PRS_FEED run by the same row
(`exec_transition`, `exec_prsFeed_of_row`), and the response is R87's form of the event, with or without a frame. -/
theorem prsFeedRunsTheTransition : Obligations.PrsFeedRunsTheTransition := by
  refine ⟨FormatF1.of_operands .prsFeed fun _ => rfl, fun t b s hrow => ⟨_, exec_transition hrow, ?_⟩⟩
  rw [exec_prsFeed_of_row hrow, State.respond, State.answer, runTransition_responses]
  cases (runTransition t b s).event with
  | none => rfl
  | some e => rfl

/-- Settles O26: the row of the opcode map for 21 reads format F0, and the command is R151's. -/
theorem prsResetReturnsToHunting : Obligations.PrsResetReturnsToHunting :=
  ⟨FormatF0.of_operands .prsReset fun _ => rfl, fun _ => rfl⟩

/-! ### Frames behind noise -/

/-- From `s` to `t`, hunting again, the parser emitted `frames` frames, dropped `drops` bytes and gave the responses
`rs`; the counters of errors stand. -/
structure State.Received (s t : State) (frames drops : Nat) (rs : List Bytes) : Prop where
  cfg : t.cfg = s.cfg
  sync : t.parser.state = .sync
  responses : t.responses = s.responses ++ rs
  counters : t.counters = { s.counters with
    framesOk := s.counters.framesOk + BitVec.ofNat 32 frames
    syncDrop := s.counters.syncDrop + BitVec.ofNat 32 drops }

theorem State.Received.refl {s : State} (hsync : s.parser.state = .sync) : s.Received s 0 0 [] where
  cfg := rfl
  sync := hsync
  responses := (List.append_nil _).symm
  counters := by simp

theorem State.Received.trans {s t u : State} {m m' n n' : Nat} {rs rs' : List Bytes} (h : s.Received t m n rs)
    (h' : t.Received u m' n' rs') : s.Received u (m + m') (n + n') (rs ++ rs') where
  cfg := h'.cfg.trans h.cfg
  sync := h'.sync
  responses := by rw [h'.responses, h.responses, List.append_assoc]
  counters := by
    rw [h'.counters, h.counters]
    simp only [BitVec.ofNat_add, BitVec.add_assoc]

/-- From SYNC, bytes other than the sync byte are dropped and counted (R140). -/
theorem execAll_prsFeed_noise {s : State} {noise : Bytes} (hsync : s.parser.state = .sync)
    (hnoise : Config.syncByte ∉ noise) :
    ∃ t, execAll (noise.map .prsFeed) s = .next t ∧
      s.Received t 0 noise.length (List.replicate noise.length [0x00, 0x00]) := by
  induction noise generalizing s with
  | nil => exact ⟨s, rfl, .refl hsync⟩
  | cons b noise ih =>
    obtain ⟨hb, hnoise⟩ := List.ne_and_not_mem_of_not_mem_cons hnoise
    have hfeed := exec_prsFeed_of_row (t := .syncDrop) ⟨hsync, Ne.symm hb⟩
    have hdrop : s.Received ((syncDrop s).respond [0x00]) 0 1 [[0x00, 0x00]] :=
      ⟨rfl, hsync, rfl, by simp [syncDrop, countSyncDrop]⟩
    obtain ⟨t, hrun, hrest⟩ := ih (s := (syncDrop s).respond [0x00]) hsync hnoise
    refine ⟨t, (execAll_cons_next hfeed).trans hrun, ?_⟩
    rw [List.length_cons, Nat.add_comm, List.replicate_add]
    exact hdrop.trans hrest

/-- From SYNC, the frame of a legal payload (R121). -/
theorem execAll_prsFeed_frame {s : State} {p : Bytes} (hsync : s.parser.state = .sync) (hpos : 1 ≤ p.length)
    (hmax : p.length ≤ s.cfg.maxPayload.toNat) :
    ∃ t, execAll ((encodeFrame p).map .prsFeed) s = .next t ∧
      s.Received t 1 0 (List.replicate (p.length + 3) [0x00, 0x00] ++ [eventPacket p]) :=
  ⟨_, encodedFramesAreDecoded s p hsync hpos hmax,
    { cfg := rfl, sync := rfl, responses := List.append_assoc _ _ _, counters := by simp }⟩

/-- From SYNC, noise without the sync byte and the frame of a legal payload behind it. -/
theorem execAll_prsFeed_noise_frame {s : State} {noise p : Bytes} (hsync : s.parser.state = .sync)
    (hnoise : Config.syncByte ∉ noise) (hpos : 1 ≤ p.length) (hmax : p.length ≤ s.cfg.maxPayload.toNat) :
    ∃ t, execAll ((noise ++ encodeFrame p).map .prsFeed) s = .next t ∧
      s.Received t 1 noise.length
        (List.replicate (noise.length + p.length + 3) [0x00, 0x00] ++ [eventPacket p]) := by
  obtain ⟨t, hrunNoise, hdropped⟩ := execAll_prsFeed_noise hsync hnoise
  obtain ⟨u, hrunFrame, hemitted⟩ := execAll_prsFeed_frame hdropped.sync hpos (by rwa [hdropped.cfg])
  refine ⟨u, by rw [List.map_append, execAll_append_next hrunNoise, hrunFrame], ?_⟩
  rw [Nat.add_assoc, List.replicate_add, List.append_assoc]
  exact hdropped.trans hemitted

/-- From SYNC, frames of legal payloads, each behind noise without the sync byte. -/
theorem execAll_prsFeed_chunks {s : State} {chunks : List (Bytes × Bytes)} (hsync : s.parser.state = .sync)
    (hchunks : ∀ c ∈ chunks, Config.syncByte ∉ c.1 ∧ 1 ≤ c.2.length ∧ c.2.length ≤ s.cfg.maxPayload.toNat) :
    ∃ t, execAll ((chunks.flatMap fun c => c.1 ++ encodeFrame c.2).map .prsFeed) s = .next t ∧
      s.Received t chunks.length (chunks.map fun c => c.1.length).sum (chunks.flatMap fun c =>
        List.replicate (c.1.length + c.2.length + 3) [0x00, 0x00] ++ [eventPacket c.2]) := by
  induction chunks generalizing s with
  | nil => exact ⟨s, rfl, .refl hsync⟩
  | cons c chunks ih =>
    obtain ⟨⟨hnoise, hpos, hmax⟩, hchunks⟩ := List.forall_mem_cons.mp hchunks
    obtain ⟨t, hrunChunk, hchunk⟩ := execAll_prsFeed_noise_frame hsync hnoise hpos hmax
    obtain ⟨u, hrunRest, hrest⟩ := ih hchunk.sync (by rwa [hchunk.cfg])
    refine ⟨u, by rw [List.flatMap_cons, List.map_append, execAll_append_next hrunChunk, hrunRest], ?_⟩
    rw [List.length_cons, Nat.add_comm]
    exact hchunk.trans hrest

/-- Settles O28: what the parser receives chunk by chunk (`execAll_prsFeed_chunks`): a chunk's noise is dropped
and its frame is emitted (`execAll_prsFeed_noise_frame`). -/
theorem noisyStreamIsDecoded : Obligations.NoisyStreamIsDecoded := by
  intro s chunks hsync hchunks
  obtain ⟨t, hrun, hreceived⟩ := execAll_prsFeed_chunks hsync hchunks
  exact ⟨t, hrun, hreceived.sync, hreceived.responses, hreceived.counters⟩

/-! ### A frame with a wrong CRC -/

theorem State.fed_respond (s : State) (p : Parser) (n : Nat) : (s.fed p n).respond [0x00] = s.fed p (n + 1) := by
  rw [State.fed, State.fed, List.replicate_succ', ← List.append_assoc]
  rfl

/-- A byte that completes no frame, whatever its transition counts: `u` is the state with that counted. -/
theorem exec_prsFeed_counted {t : Transition} {b : Byte} {s u : State} {q : Parser} {n : Nat} (hrow : t.Row s b)
    (hrun : runTransition t b s = u.fed q n) : exec (.prsFeed b) s = .next (u.fed q (n + 1)) := by
  rw [exec_prsFeed_of_row hrow, hrun]
  exact congrArg _ (u.fed_respond q n)

/-- From SYNC, the frame of a legal payload with another CRC `c` in the place of its own: every byte is answered 00 00,
and the frame is discarded and counted (R148). -/
theorem execAll_prsFeed_wrong_crc {s : State} {p : Bytes} {c : U16} (hsync : s.parser.state = .sync)
    (hpos : 1 ≤ p.length) (hmax : p.length ≤ s.cfg.maxPayload.toNat) (hc : c ≠ frameCrc p) :
    execAll (([Config.syncByte, BitVec.ofNat 8 p.length] ++ p ++ u16Bytes c).map .prsFeed) s =
      .next ({ s with counters := countCrcErr s.counters }.fed Parser.reset (p.length + 4)) := by
  have hmismatch : Transition.crcMismatch.Row
      (s.fed (.inFrame .crcLo (BitVec.ofNat 8 p.length) p (hi8 c)) (p.length + 3)) (lo8 c) :=
    ⟨rfl, (be16_hi8_lo8 c).trans_ne hc⟩
  have hsplit : u16Bytes c = [hi8 c] ++ [lo8 c] := rfl
  rw [hsplit, ← List.append_assoc, List.map_append,
    execAll_append_next (execAll_prsFeed_before_last _ hsync hpos hmax)]
  exact execAll_cons_next (exec_prsFeed_counted hmismatch rfl)

/-- Flipping a bit gives another word: they differ in that bit. -/
theorem xor_one_shiftLeft_ne (c : U16) {k : Nat} (hk : k < 16) : c ^^^ (1#16 <<< k) ≠ c := by
  intro h
  have hbit := congrArg (·.getLsbD k) h
  simp [hk] at hbit

/-- Settles O29: a CRC with one bit flipped is another CRC (`xor_one_shiftLeft_ne`), and so the frame is discarded
(`execAll_prsFeed_wrong_crc`). -/
theorem flippedCrcBitsAreRejected : Obligations.FlippedCrcBitsAreRejected := by
  intro s p k hsync hpos hmax hk
  exact ⟨_, execAll_prsFeed_wrong_crc hsync hpos hmax (xor_one_shiftLeft_ne (frameCrc p) hk), rfl, rfl, rfl⟩

/-! ### A second sync byte -/

/-- From SYNC, the sync byte and a length byte that is not legal: the attempt is abandoned and counted (R142). -/
theorem execAll_prsFeed_bad_header {s : State} {len : Byte} (hsync : s.parser.state = .sync)
    (hbad : len = 0 ∨ s.cfg.maxPayload.toNat < len.toNat) :
    execAll ([Config.syncByte, len].map .prsFeed) s =
      .next ({ s with counters := countLenErr s.counters }.fed Parser.reset 2) := by
  have hhit : exec (.prsFeed Config.syncByte) s =
      .next (s.fed { s.parser with state := .len, crc := Config.crcInitFrame, acc := [] } 1) :=
    exec_prsFeed_of_row (t := .syncHit) ⟨hsync, rfl⟩
  exact (execAll_cons_next hhit).trans (execAll_cons_next (exec_prsFeed_counted (t := .lenBad) ⟨rfl, hbad⟩ rfl))

/-- Settles O30: below 170 the second AA is no legal length, and the bytes behind it are noise
(`execAll_prsFeed_bad_header`, `execAll_prsFeed_noise`); from 170 on it is one (`execAll_prsFeed_header`). -/
theorem secondSyncByteIsALength : Obligations.SecondSyncByteIsALength := by
  refine fun s hsync => ⟨fun hbelow => ?_, fun hfrom => ?_⟩
  · have hheader := execAll_prsFeed_bad_header (len := 0xAA) hsync (.inr hbelow)
    obtain ⟨t, hrun, hreceived⟩ := execAll_prsFeed_noise
      (s := { s with counters := countLenErr s.counters }.fed Parser.reset 2) (noise := [0x01, 0x61, 0x52, 0xB9])
      rfl (by decide)
    refine ⟨t, (execAll_append_next hheader).trans hrun, ?_, ?_⟩
    · exact hreceived.responses.trans (List.append_assoc _ _ _)
    · simpa [State.fed, countLenErr] using hreceived.counters
  · exact ⟨_, execAll_prsFeed_header (len := 0xAA) hsync (by decide) hfrom, rfl, rfl⟩

end Sys2Proof.Machine
end

section
/-! PROOF. The family of 43_segment_codec.md: the four splitting commands, that the pieces cover the data, and that the
pieces of a split, accepted in any order, reassemble to it. -/

namespace Sys2Proof.Machine

open Sys2Proof

/-! ### The chunks of the closed form -/

/-- The chunk of index `i` when `d` is cut every `c` bytes (R174). -/
def chunkAt (c : Nat) (d : Bytes) (i : Nat) : Bytes := (d.drop (i * c)).take c

/-- The piece of `split` that carries the chunk of index `i` (R170, R174). -/
def pieceAt (c : Nat) (tid : Byte) (d : Bytes) (i : Nat) : Bytes :=
  segHeader tid d.length (i * c) (min c (d.length - i * c)) ++ chunkAt c d i

theorem expectedPieces_eq_map (cfg : Config) (tid : Byte) (d : Bytes) : expectedPieces cfg tid d =
    (List.range (pieceCount (cfg.maxPayload.toNat - 7) d.length)).map (pieceAt (cfg.maxPayload.toNat - 7) tid d) :=
  rfl

theorem expectedRawPieces_eq_map (cfg : Config) (d : Bytes) : expectedRawPieces cfg d =
    (List.range (pieceCount cfg.maxPayload.toNat d.length)).map (chunkAt cfg.maxPayload.toNat d) := rfl

@[simp] theorem chunkAt_length (c : Nat) (d : Bytes) (i : Nat) :
    (chunkAt c d i).length = min c (d.length - i * c) := by
  rw [chunkAt, List.length_take, List.length_drop]

@[simp] theorem pieceAt_length (c : Nat) (tid : Byte) (d : Bytes) (i : Nat) :
    (pieceAt c tid d i).length = 7 + min c (d.length - i * c) := by
  rw [pieceAt, List.length_append, segHeader_length, chunkAt_length]

/-- The chunk stands behind the seven bytes of the header. -/
theorem pieceAt_drop_header (c : Nat) (tid : Byte) (d : Bytes) (i : Nat) :
    (pieceAt c tid d i).drop 7 = chunkAt c d i := rfl

/-- The indices of the chunks are those whose first byte lies in the data. -/
theorem lt_pieceCount_iff {c n i : Nat} (hc : 0 < c) : i < pieceCount c n ↔ i * c < n := by
  rw [pieceCount, ← Nat.succ_le_iff, Nat.le_div_iff_mul_le hc, Nat.succ_mul]
  omega

/-- The first `k` chunks are the first `k * c` bytes. -/
theorem flatten_map_chunkAt (c : Nat) (d : Bytes) (k : Nat) :
    ((List.range k).map (chunkAt c d)).flatten = d.take (k * c) := by
  induction k with
  | zero => simp
  | succ k ih => simp [List.range_succ, ih, Nat.succ_mul, List.take_add, chunkAt]

/-- All chunks together are the data. -/
theorem flatten_map_chunkAt_pieceCount {c : Nat} (hc : 0 < c) (d : Bytes) :
    ((List.range (pieceCount c d.length)).map (chunkAt c d)).flatten = d := by
  have hall : d.length ≤ pieceCount c d.length * c :=
    Nat.le_of_not_lt fun h => (Nat.lt_irrefl _) ((lt_pieceCount_iff hc).mpr h)
  rw [flatten_map_chunkAt, List.take_of_length_le hall]

/-! ### The splitter is the closed form -/

/-- `split` gives the pieces of R174, by the closed form of the slicing loop (`slices_eq`). -/
theorem split_eq_expectedPieces {cfg : Config} (h : cfg.Legal) (tid : Byte) (d : Bytes) :
    split cfg tid d = expectedPieces cfg tid d := by
  have hc : 0 < chunkMax cfg := Nat.sub_pos_of_lt h
  rw [split, slices_eq hc _ _ _ le_rfl, List.map_map, expectedPieces_eq_map]
  refine List.map_congr_left fun i _ => ?_
  simp only [Function.comp_apply, Nat.zero_add, List.length_take, List.length_drop]
  rfl

/-- `split_raw` gives the slices of R174, by the closed form of the slicing loop (`slices_eq`). -/
theorem splitRaw_eq_expectedRawPieces {cfg : Config} (h : cfg.Legal) (d : Bytes) :
    splitRaw cfg d = expectedRawPieces cfg d := by
  have hc : 0 < cfg.maxPayload.toNat := Nat.zero_lt_of_lt h
  rw [splitRaw, slices_eq hc _ _ _ le_rfl, List.map_map]
  rfl

/-- Every piece fits a frame (R172). -/
theorem length_of_mem_expectedPieces {cfg : Config} (h : cfg.Legal) {tid : Byte} {d p : Bytes}
    (hp : p ∈ expectedPieces cfg tid d) : 8 ≤ p.length ∧ p.length ≤ cfg.maxPayload.toNat := by
  have hc : 0 < cfg.maxPayload.toNat - 7 := Nat.sub_pos_of_lt h
  rw [expectedPieces_eq_map] at hp
  obtain ⟨i, hi, rfl⟩ := List.mem_map.mp hp
  rw [List.mem_range, lt_pieceCount_iff hc] at hi
  rw [pieceAt_length]
  omega

/-- Every slice fits a frame (R173). -/
theorem length_of_mem_expectedRawPieces {cfg : Config} (h : cfg.Legal) {d p : Bytes}
    (hp : p ∈ expectedRawPieces cfg d) : 1 ≤ p.length ∧ p.length ≤ cfg.maxPayload.toNat := by
  have hc : 0 < cfg.maxPayload.toNat := Nat.zero_lt_of_lt h
  rw [expectedRawPieces_eq_map] at hp
  obtain ⟨i, hi, rfl⟩ := List.mem_map.mp hp
  rw [List.mem_range, lt_pieceCount_iff hc] at hi
  rw [chunkAt_length]
  omega

/-! ### The commands -/

/-- Settles O31: the row of the opcode map for 30 reads format F1B, and the command answers the LIST of what `split`
gives (`split_eq_expectedPieces`). -/
theorem segSplitAnswersPieces : Obligations.SegSplitAnswersPieces := by
  refine ⟨FormatF1B.of_operands .segSplit fun _ => rfl, fun tid d s hlegal => ?_⟩
  rw [exec_of_transmitAnswer rfl, split_eq_expectedPieces hlegal]
  rfl

/-- Settles O32: the row of the opcode map for 31 reads format FB, and the command answers the LIST of what `split_raw`
gives (`splitRaw_eq_expectedRawPieces`). -/
theorem segSplitRawAnswersSlices : Obligations.SegSplitRawAnswersSlices := by
  refine ⟨FormatFB.of_operands .segSplitRaw fun _ => rfl, fun d s hlegal => ?_⟩
  rw [exec_of_transmitAnswer rfl, splitRaw_eq_expectedRawPieces hlegal]
  rfl

/-- The LIST of the frames of some payloads. -/
theorem listBytes_map_encodeFrame (l : List Bytes) : listBytes (l.map encodeFrame) =
    u16Bytes (BitVec.ofNat 16 l.length) ++ l.flatMap fun p => blobBytes (encodeFrame p) := by
  rw [listBytes, List.length_map, List.flatMap_map]

/-- Settles O33: the row of the opcode map for 32 reads format F1B, the command answers the LIST of the frames of what
`split` gives, and a piece is a header and a chunk that is not empty (`length_of_mem_expectedPieces`). -/
theorem txSegmentedAnswersFrames : Obligations.TxSegmentedAnswersFrames := by
  refine ⟨FormatF1B.of_operands .txSegmented fun _ => rfl, fun tid d s hlegal =>
    ⟨?_, fun p => length_of_mem_expectedPieces hlegal⟩⟩
  rw [exec_of_transmitAnswer rfl, split_eq_expectedPieces hlegal, listBytes_map_encodeFrame]
  rfl

/-- Settles O34: the row of the opcode map for 33 reads format FB, the command answers the LIST of the frames of what
`split_raw` gives, and no slice is empty (`length_of_mem_expectedRawPieces`). -/
theorem txRawAnswersFrames : Obligations.TxRawAnswersFrames := by
  refine ⟨FormatFB.of_operands .txRaw fun _ => rfl, fun d s hlegal =>
    ⟨?_, fun p => length_of_mem_expectedRawPieces hlegal⟩⟩
  rw [exec_of_transmitAnswer rfl, splitRaw_eq_expectedRawPieces hlegal, listBytes_map_encodeFrame]
  rfl

/-- Settles O35: the splitter is the closed form, whose chunks together are the data
(`flatten_map_chunkAt_pieceCount`). -/
theorem splitCoversTheData : Obligations.SplitCoversTheData := by
  intro cfg tid d hlegal _
  have hc : 0 < cfg.maxPayload.toNat - 7 := Nat.sub_pos_of_lt hlegal
  have hcRaw : 0 < cfg.maxPayload.toNat := Nat.zero_lt_of_lt hlegal
  rw [split_eq_expectedPieces hlegal, splitRaw_eq_expectedRawPieces hlegal, expectedPieces_eq_map,
    expectedRawPieces_eq_map]
  refine ⟨?_, flatten_map_chunkAt_pieceCount hcRaw d, by simp, by simp, rfl, rfl⟩
  simp only [List.map_map, Function.comp_def, pieceAt_drop_header]
  exact flatten_map_chunkAt_pieceCount hc d

/-! ### A piece as a segment -/

/-- What R191 reads from the piece of index `i`. -/
def pieceSegment (c : Nat) (tid : Byte) (d : Bytes) (i : Nat) : Segment where
  tid := tid
  total := BitVec.ofNat 16 d.length
  off := BitVec.ofNat 16 (i * c)
  len := BitVec.ofNat 8 (min c (d.length - i * c))
  chunk := chunkAt c d i

section

variable {c : Nat} {d : Bytes} {i : Nat} (hc : c < 256) (hd : d.length < 65536) (hi : i * c < d.length)

include hd in
theorem pieceSegment_total_toNat (tid : Byte) : (pieceSegment c tid d i).total.toNat = d.length :=
  Nat.mod_eq_of_lt hd

include hd hi in
theorem pieceSegment_off_toNat (tid : Byte) : (pieceSegment c tid d i).off.toNat = i * c :=
  Nat.mod_eq_of_lt (hi.trans hd)

include hc in
theorem pieceSegment_len_toNat (tid : Byte) :
    (pieceSegment c tid d i).len.toNat = min c (d.length - i * c) :=
  Nat.mod_eq_of_lt ((Nat.min_le_left _ _).trans_lt hc)

include hc hd hi in
/-- The header of a piece is consistent (R191), so the piece is read as its segment. -/
theorem rsmParse_pieceAt (tid : Byte) : rsmParse (pieceAt c tid d i) = some (pieceSegment c tid d i) := by
  refine (rsmParse_eq_some _ _).mpr
    ⟨⟨_, _, _, _, rfl, (be16_hi8_lo8 _).symm, (be16_hi8_lo8 _).symm⟩, ?_, ?_⟩
  · rw [pieceSegment_len_toNat hc]
    exact (chunkAt_length c d i).symm
  · rw [pieceSegment_off_toNat hd hi, pieceSegment_len_toNat hc, pieceSegment_total_toNat hd]
    omega

end

/-! ### A slot that waits for pieces -/

/-- Of a transfer of `d`, cut every `c` bytes, the slot waits for the chunks of the indices `rem` and no others: their
cells are HOLE and the other cells hold the data, and COUNTER has counted all bytes but theirs. A slot that waits for
all chunks may still be at its reset value. -/
structure Slot.Awaits (x : Slot) (mode : CompletionMode) (c : Nat) (d : Bytes) (rem : List Nat) : Prop where
  total : x = Slot.reset ∨ x.active = true ∧ x.total = BitVec.ofNat 16 d.length
  cells : ∀ a < d.length, Memory.read x.buf a = if a / c ∈ rem then none else d[a]?
  count : mode = .counter → x.received.toNat + (rem.map fun i => min c (d.length - i * c)).sum = d.length

/-- At its reset value a slot waits for all chunks. -/
theorem Slot.reset_awaits {c : Nat} (hc : 0 < c) (mode : CompletionMode) {d : Bytes} {rem : List Nat}
    (hrem : rem.Perm (List.range (pieceCount c d.length))) : Slot.reset.Awaits mode c d rem where
  total := .inl rfl
  cells a ha := by
    have hmem : a / c ∈ rem := by
      rw [hrem.mem_iff, List.mem_range, lt_pieceCount_iff hc]
      exact (Nat.div_mul_le_self a c).trans_lt ha
    rw [if_pos hmem]
    rfl
  count _ := by
    have hall := congrArg List.length (flatten_map_chunkAt_pieceCount hc d)
    simp only [List.length_flatten, List.map_map, Function.comp_def, chunkAt_length] at hall
    rw [(hrem.map _).sum_eq, hall]
    exact Nat.zero_add _

section

variable {x : Slot} {mode : CompletionMode} {c : Nat} {d : Bytes} {rem : List Nat}

/-- A slot that waits for pieces takes a segment of its transfer (R192). -/
theorem Slot.Awaits.mismatch (h : x.Awaits mode c d rem) {g : Segment} (hg : g.total = BitVec.ofNat 16 d.length) :
    x.mismatch g = false := by
  rcases h.total with rfl | ⟨-, ht⟩
  · rfl
  · simp [Slot.mismatch, ht, hg]

/-- The slot that R192 and R193 open for it: the buffer and the count are those of the slot. -/
theorem Slot.Awaits.opened (h : x.Awaits mode c d rem) {g : Segment} (hg : g.total = BitVec.ofNat 16 d.length) :
    x.opened g = { x with active := true, total := BitVec.ofNat 16 d.length } := by
  rcases h.total with rfl | ⟨ha, ht⟩
  · rw [← hg]; rfl
  · rw [Slot.opened, if_pos ⟨ha, by simp [h.mismatch hg]⟩, ← ha, ← ht]

/-- The cells of the chunk of index `i` are those whose offset divides to `i`. -/
theorem mem_chunkAt_cells_iff (hc : 0 < c) {a i : Nat} (ha : a < d.length) :
    (i * c ≤ a ∧ a < i * c + (chunkAt c d i).length) ↔ a / c = i := by
  rw [Nat.div_eq_iff hc, chunkAt_length]
  omega

/-- The write of R194: after the piece of index `i` the slot no longer waits for it. -/
theorem Slot.Awaits.accept {i : Nat} (tid : Byte) (h : x.Awaits mode c d (i :: rem)) (hpos : 0 < c) (hc : c < 256)
    (hd : d.length < 65536) (hi : i * c < d.length) (hnew : i ∉ rem) :
    ((x.opened (pieceSegment c tid d i)).accept mode (pieceSegment c tid d i)).Awaits mode c d rem := by
  rw [h.opened rfl]
  refine ⟨.inr ⟨rfl, rfl⟩, fun a ha => ?_, ?_⟩
  · have hread := Memory.read_writeBytes (chunkAt c d i) x.buf (i * c) a
    simp only [mem_chunkAt_cells_iff hpos ha] at hread
    simp only [Slot.accept, pieceSegment_off_toNat hd hi]
    refine hread.trans ?_
    by_cases hai : a / c = i
    · obtain ⟨hle, hlt⟩ := (mem_chunkAt_cells_iff hpos ha).mpr hai
      rw [if_pos hai, if_neg (hai ▸ hnew), chunkAt, List.getElem?_take_of_lt, List.getElem?_drop,
        Nat.add_sub_cancel' hle]
      rw [chunkAt_length] at hlt
      omega
    · rw [if_neg hai, h.cells a ha]
      simp [hai]
  · rintro rfl
    have hcount := h.count rfl
    rw [List.map_cons, List.sum_cons] at hcount
    have hlen := pieceSegment_len_toNat (d := d) (i := i) hc tid
    have hreceived : (x.received + (pieceSegment c tid d i).len.setWidth 17).toNat =
        x.received.toNat + min c (d.length - i * c) := by
      rw [BitVec.toNat_add, BitVec.toNat_setWidth_of_le (by decide), hlen]
      exact Nat.mod_eq_of_lt (by omega)
    simp only [Slot.accept, hreceived]
    omega

/-- The transfer is complete when the slot waits for nothing (R195). -/
theorem Slot.Awaits.done (h : x.Awaits mode c d []) (ht : x.total.toNat = d.length) : x.done mode = true := by
  cases mode with
  | counter =>
    have hcount := h.count rfl
    exact decide_eq_true (by simpa [ht] using hcount.ge)
  | coverage =>
    refine List.all_eq_true.mpr fun a ha => ?_
    rw [ht, List.mem_range] at ha
    simp [h.cells a ha, ha]

/-- While the slot waits for a chunk with a byte in the data, the transfer is not complete (R195). -/
theorem Slot.Awaits.not_done {i : Nat} (h : x.Awaits mode c d rem) (ht : x.total.toNat = d.length) (hpos : 0 < c)
    (hmem : i ∈ rem) (hi : i * c < d.length) : x.done mode = false := by
  cases mode with
  | counter =>
    have hcount := h.count rfl
    have hle := List.single_le_sum (fun _ _ => Nat.zero_le _) _
      (List.mem_map_of_mem (f := fun i => min c (d.length - i * c)) hmem)
    exact decide_eq_false (by omega)
  | coverage =>
    refine Bool.eq_false_iff.mpr fun hall => ?_
    have hread := List.all_eq_true.mp hall (i * c) (List.mem_range.mpr (ht ▸ hi))
    simp [h.cells _ hi, Nat.mul_div_cancel i hpos, hmem] at hread

/-- The readout of a slot that waits for nothing is the data: no cell is a HOLE (R196). -/
theorem Slot.Awaits.readout (h : x.Awaits mode c d []) (draw : Nat) : Memory.readout x.buf d.length draw = d := by
  refine List.ext_getElem? fun a => ?_
  by_cases ha : a < d.length
  · rw [Memory.readout_getElem? _ _ _ _ ha, h.cells a ha]
    simp [ha]
  · rw [List.getElem?_eq_none (by simpa using ha), List.getElem?_eq_none (by omega)]

end

/-! ### Accepting a piece -/

section

variable {s : State} {tid : Byte} {c : Nat} {d : Bytes} {i : Nat} {rem : List Nat}

/-- A slot that waits for pieces takes the piece of index `i`: no total mismatch stands against it (R192). -/
theorem rsmAccept_pieceAt (h : (s.slot tid).Awaits s.cfg.mode c d rem) (hc : c < 256) (hd : d.length < 65536)
    (hi : i * c < d.length) : rsmAccept s (pieceAt c tid d i) =
      rsmWrite s (pieceSegment c tid d i) ((s.slot tid).opened (pieceSegment c tid d i)) := by
  have hmatch : (s.slot (pieceSegment c tid d i).tid).mismatch (pieceSegment c tid d i) = false := h.mismatch rfl
  simp only [rsmAccept, rsmParse_pieceAt hc hd hi, hmatch]
  rfl

/-- The total of the slot that is written. -/
theorem Slot.Awaits.accept_total_toNat (h : (s.slot tid).Awaits s.cfg.mode c d rem) (hd : d.length < 65536) :
    (((s.slot tid).opened (pieceSegment c tid d i)).accept s.cfg.mode (pieceSegment c tid d i)).total.toNat =
      d.length := by
  rw [h.opened rfl]
  exact Nat.mod_eq_of_lt hd

/-- The last piece completes the transfer with the data and resets the slot (R195, R196). -/
theorem rsmAccept_last_piece (h : (s.slot tid).Awaits s.cfg.mode c d [i]) (hpos : 0 < c) (hc : c < 256)
    (hd : d.length < 65536) (hi : i * c < d.length) :
    (rsmAccept s (pieceAt c tid d i)).2 = .complete tid d ∧
      (rsmAccept s (pieceAt c tid d i)).1.slot tid = Slot.reset := by
  have hwritten := h.accept tid hpos hc hd hi List.not_mem_nil
  have htotal := h.accept_total_toNat (i := i) hd
  have hread := hwritten.readout s.readouts
  simp only [rsmAccept_pieceAt h hc hd hi, rsmWrite, hwritten.done htotal, htotal, hread, if_true]
  exact ⟨rfl, s.setSlot_slot_self tid _⟩

/-- A piece that is not the last is written to the slot and answered with `Progress` (R194). -/
theorem rsmAccept_piece (h : (s.slot tid).Awaits s.cfg.mode c d (i :: rem)) (hpos : 0 < c) (hc : c < 256)
    (hd : d.length < 65536) (hnew : i ∉ rem) (hin : ∀ k ∈ i :: rem, k * c < d.length) (hmore : rem ≠ []) :
    (∃ n, (rsmAccept s (pieceAt c tid d i)).2 = .progress tid n) ∧
      ((rsmAccept s (pieceAt c tid d i)).1.slot tid).Awaits s.cfg.mode c d rem := by
  obtain ⟨hi, hrem⟩ := List.forall_mem_cons.mp hin
  obtain ⟨k, hk⟩ := List.exists_mem_of_ne_nil rem hmore
  have hwritten := h.accept tid hpos hc hd hi hnew
  have hdone := hwritten.not_done (h.accept_total_toNat hd) hpos hk (hrem k hk)
  simp only [rsmAccept_pieceAt h hc hd hi, rsmWrite, hdone, Bool.false_eq_true, if_false]
  exact ⟨⟨_, rfl⟩, (s.setSlot_slot_self tid _).symm ▸ hwritten⟩

end

/-! ### Accepting a list of frame data -/

/-- RSM_ACCEPT of the frame data `l` in order leads from `s` to `t`, with one answer each; `own` are the answers to
those that carry the id `tid`. -/
def State.Accepts (s : State) (tid : Byte) (l own : List Bytes) (t : State) : Prop :=
  ∃ rs, execAll (l.map Instr.rsmAccept) s = .next t ∧ t.responses = s.responses ++ rs ∧ rs.length = l.length ∧
    ((l.zip rs).filter fun x => carriesId tid x.1).map (fun x => x.2) = own

/-- The state after RSM_ACCEPT of `p`. -/
def State.accepted (s : State) (p : Bytes) : State := (rsmAccept s p).1.respond (resBytes (rsmAccept s p).2)

theorem State.Accepts.nil (s : State) (tid : Byte) : s.Accepts tid [] [] s := ⟨[], rfl, by simp, rfl, rfl⟩

theorem State.accepted_cfg (s : State) (p : Bytes) : (s.accepted p).cfg = s.cfg := (rsmAccept_frame s p).1

section

variable {s t : State} {tid : Byte} {p : Bytes} {l own : List Bytes}

/-- One more piece of frame data at the front; its answer counts when it carries the id. -/
theorem State.Accepts.cons (h : (s.accepted p).Accepts tid l own t) : s.Accepts tid (p :: l)
    (if carriesId tid p then (0x00 :: resBytes (rsmAccept s p).2) :: own else own) t := by
  obtain ⟨rs, hrun, hresponses, hlength, rfl⟩ := h
  obtain ⟨-, -, -, -, -, -, hold⟩ := rsmAccept_frame s p
  refine ⟨(0x00 :: resBytes (rsmAccept s p).2) :: rs, (execAll_cons_next (exec_rsmAccept p s)).trans hrun, ?_,
    congrArg (· + 1) hlength, ?_⟩
  · rw [hresponses, State.accepted, State.respond_responses, hold, List.append_assoc]
    rfl
  · by_cases hp : carriesId tid p <;> simp [hp]

theorem State.Accepts.cons_own (h : (s.accepted p).Accepts tid l own t) (hp : carriesId tid p = true) :
    s.Accepts tid (p :: l) ((0x00 :: resBytes (rsmAccept s p).2) :: own) t := by
  simpa [hp] using h.cons

theorem State.Accepts.cons_other (h : (s.accepted p).Accepts tid l own t) (hp : carriesId tid p = false) :
    s.Accepts tid (p :: l) own t := by
  simpa [hp] using h.cons

/-- Frame data of other ids leaves the slot alone (R206). -/
theorem accepts_others (hl : l.filter (carriesId tid) = []) : ∃ t, s.Accepts tid l [] t ∧ t.slot tid = s.slot tid := by
  induction l generalizing s with
  | nil => exact ⟨s, .nil s tid, rfl⟩
  | cons p l ih =>
    have hp : carriesId tid p = false := by
      simpa using List.filter_eq_nil_iff.mp hl p List.mem_cons_self
    rw [List.filter_cons_of_neg (by simp [hp])] at hl
    obtain ⟨t, ht, hslot⟩ := ih (s := s.accepted p) hl
    exact ⟨t, ht.cons_other hp, hslot.trans (rsmAccept_slot_ne hp)⟩

end

/-- The answer that completes a transfer of `d` (R88). -/
def completeAnswer (tid : Byte) (d : Bytes) : Bytes := [0x00, 0x02, tid] ++ blobBytes d

/-- The answer is a `Progress` of the transfer (R88). -/
def IsProgress (tid : Byte) (r : Bytes) : Prop := ∃ n : U32, r = [0x00, 0x01, tid] ++ u32Bytes n

/-- A slot that waits for pieces gets them, in this order and with frame data of other ids in between: `Progress` for
all but the last, and `Complete` with the data for the last. -/
theorem accepts_pieces {s : State} {tid : Byte} {c : Nat} {d : Bytes} {l : List Bytes} {rem : List Nat} (hpos : 0 < c)
    (hc : c < 256) (hd : d.length < 65536) (hne : rem ≠ []) (hnodup : rem.Nodup)
    (hin : ∀ k ∈ rem, k * c < d.length) (h : (s.slot tid).Awaits s.cfg.mode c d rem)
    (hl : l.filter (carriesId tid) = rem.map (pieceAt c tid d)) :
    ∃ t ps, s.Accepts tid l (ps ++ [completeAnswer tid d]) t ∧ (∀ r ∈ ps, IsProgress tid r) ∧
      t.slot tid = Slot.reset := by
  induction l generalizing s rem with
  | nil => exact absurd (List.map_eq_nil_iff.mp hl.symm) hne
  | cons p l ih =>
    cases hp : carriesId tid p with
    | false =>
      rw [List.filter_cons_of_neg (by simp [hp])] at hl
      have hkept : ((s.accepted p).slot tid).Awaits (s.accepted p).cfg.mode c d rem := by
        rw [s.accepted_cfg, show (s.accepted p).slot tid = s.slot tid from rsmAccept_slot_ne hp]
        exact h
      obtain ⟨t, ps, ht, hps, hslot⟩ := ih hne hnodup hin hkept hl
      exact ⟨t, ps, ht.cons_other hp, hps, hslot⟩
    | true =>
      obtain ⟨i, rem, rfl⟩ := List.exists_cons_of_ne_nil hne
      rw [List.filter_cons_of_pos hp, List.map_cons, List.cons.injEq] at hl
      obtain ⟨rfl, hl⟩ := hl
      obtain ⟨hnew, hnodup⟩ := List.nodup_cons.mp hnodup
      by_cases hlast : rem = []
      · subst hlast
        obtain ⟨hanswer, hreset⟩ := rsmAccept_last_piece h hpos hc hd (hin i List.mem_cons_self)
        obtain ⟨t, ht, hslot⟩ := accepts_others (s := s.accepted (pieceAt c tid d i)) hl
        refine ⟨t, [], ?_, by simp, hslot.trans hreset⟩
        have hown := ht.cons_own hp
        rwa [hanswer] at hown
      · obtain ⟨⟨n, hanswer⟩, hwaits⟩ := rsmAccept_piece h hpos hc hd hnew hin hlast
        rw [← s.accepted_cfg (pieceAt c tid d i)] at hwaits
        obtain ⟨t, ps, ht, hps, hslot⟩ := ih (s := s.accepted (pieceAt c tid d i)) hlast hnodup
          (List.forall_mem_cons.mp hin).2 hwaits hl
        refine ⟨t, _ :: ps, ht.cons_own hp, List.forall_mem_cons.mpr ⟨⟨n, ?_⟩, hps⟩, hslot⟩
        rw [hanswer]
        rfl

/-- Settles O44: the slot waits for the pieces in the order of their delivery (`accepts_pieces`), which is some order of
all pieces of the closed form. -/
theorem splitTransfersReassemble : Obligations.SplitTransfersReassemble := by
  intro s tid d l hlegal hreset hpos hmax hperm
  have hc : 0 < s.cfg.maxPayload.toNat - 7 := Nat.sub_pos_of_lt hlegal
  have hbyte : s.cfg.maxPayload.toNat < 256 := s.cfg.maxPayload.isLt
  rw [split_eq_expectedPieces hlegal, expectedPieces_eq_map] at hperm
  obtain ⟨rem, hl, hrem⟩ := (congrFun₂ (List.eq_map_comp_perm _) _ _).mpr hperm
  have hin : ∀ k ∈ rem, k * (s.cfg.maxPayload.toNat - 7) < d.length := fun k hk =>
    (lt_pieceCount_iff hc).mp (List.mem_range.mp (hrem.mem_iff.mp hk))
  have hne : rem ≠ [] := by
    refine List.ne_nil_of_mem (hrem.mem_iff.mpr (List.mem_range.mpr ((lt_pieceCount_iff (i := 0) hc).mpr ?_)))
    omega
  obtain ⟨t, ps, ⟨rs, hrun, hresponses, hlength, hown⟩, hps, hslot⟩ := accepts_pieces hc (by omega) (by omega) hne
    (hrem.nodup_iff.mpr List.nodup_range) hin (hreset ▸ Slot.reset_awaits hc _ hrem) hl
  exact ⟨t, rs, ps, hrun, hresponses, hlength, hown, hps, hslot⟩

end Sys2Proof.Machine
end

section
/-! PROOF. The family of 44_reassembler.md: what RSM_ACCEPT refuses, writes, counts and completes, that a duplicate
changes nothing under COVERAGE, RSM_STATUS, RSM_CLEAR, and the receive pipeline of RX_BYTE. -/

namespace Sys2Proof.Machine

open Sys2Proof

/-! ### Reading a segment -/

/-- What R191 reads from a header and the chunk behind it. -/
def segmentOf (tid t1 t0 o1 o0 k : Byte) (chunk : Bytes) : Segment where
  tid := tid
  total := be16 t1 t0
  off := be16 o1 o0
  len := k
  chunk := chunk

/-- A consistent header is read as its segment (R191). -/
theorem rsmParse_consistent {tid t1 t0 o1 o0 k : Byte} {chunk : Bytes} (hlen : k.toNat = chunk.length)
    (hfit : (be16 o1 o0).toNat + k.toNat ≤ (be16 t1 t0).toNat) :
    rsmParse (0x01 :: tid :: t1 :: t0 :: o1 :: o0 :: k :: chunk) = some (segmentOf tid t1 t0 o1 o0 k chunk) :=
  (rsmParse_eq_some _ _).mpr ⟨⟨_, _, _, _, rfl, rfl, rfl⟩, hlen, hfit⟩

/-- Data shorter than a header is no segment (R191). -/
theorem rsmParse_short {d : Bytes} (h : d.length < 7) : rsmParse d = none := by
  refine Option.eq_none_iff_forall_ne_some.mpr fun g hg => ?_
  obtain ⟨⟨t1, t0, o1, o0, rfl, -⟩, -⟩ := (rsmParse_eq_some d g).mp hg
  simp only [List.length_cons] at h
  omega

/-- Data with another type, another chunk length or a chunk that ends above the total is no segment (R191). -/
theorem rsmParse_inconsistent {typ tid t1 t0 o1 o0 k : Byte} {chunk : Bytes}
    (h : typ ≠ 0x01 ∨ k.toNat ≠ chunk.length ∨ (be16 t1 t0).toNat < (be16 o1 o0).toNat + k.toNat) :
    rsmParse (typ :: tid :: t1 :: t0 :: o1 :: o0 :: k :: chunk) = none := by
  refine Option.eq_none_iff_forall_ne_some.mpr fun g hg => ?_
  obtain ⟨⟨_, _, _, _, hd, htotal, hoff⟩, hlen, hfit⟩ := (rsmParse_eq_some _ g).mp hg
  cases hd
  rw [htotal, hoff] at hfit
  rcases h with htyp | hk | hover
  · exact htyp rfl
  · exact hk hlen
  · exact hover.not_ge hfit

/-! ### The outcomes of `rsm_accept` -/

/-- Where no event is held, a response adds its packet and changes nothing else. -/
theorem State.respond_of_no_event {s : State} (h : s.event = none) (f : Bytes) :
    s.respond f = { s with responses := s.responses ++ [0x00 :: f] } := by
  rw [State.respond, State.answer, ← h]
  rfl

/-- Refused data is answered NotSegmented and changes nothing (R191, R192). -/
theorem exec_rsmAccept_of_refuses {s : State} {d : Bytes} (h : Refuses s d) :
    exec (.rsmAccept d) s = .next { s with event := none, responses := s.responses ++ [[0x00, 0x00]] } := by
  rw [exec_rsmAccept, rsmAccept_of_refuses h]
  rfl

section

variable {s : State} {d : Bytes} {g : Segment} (hg : rsmParse d = some g)

include hg

/-- A segment that R192 does not refuse is written to the slot that R192 and R193 open. -/
theorem rsmAccept_of_segment (hm : ¬ ((s.slot g.tid).mismatch g = true ∧ s.cfg.policy = .reject)) :
    rsmAccept s d = rsmWrite s g ((s.slot g.tid).opened g) := by
  simp only [rsmAccept, hg, if_neg hm]

/-- While the transfer is not complete the slot holds the write and Progress is the result (R194, R195). -/
theorem rsmAccept_progress (hm : (s.slot g.tid).mismatch g = false) (hd : (written s g).done s.cfg.mode = false) :
    rsmAccept s d = (s.setSlot g.tid (written s g), .progress g.tid ((written s g).soFar s.cfg.mode)) :=
  (rsmAccept_of_segment hg (by simp [hm])).trans (if_neg (ne_true_of_eq_false hd))

/-- A complete transfer is read out and its slot reset (R195, R196). -/
theorem rsmAccept_complete (hm : (s.slot g.tid).mismatch g = false) (hd : (written s g).done s.cfg.mode = true) :
    rsmAccept s d = ({ s.setSlot g.tid Slot.reset with readouts := s.readouts + 1 },
      .complete g.tid (Memory.readout (written s g).buf (written s g).total.toNat s.readouts)) :=
  (rsmAccept_of_segment hg (by simp [hm])).trans (if_pos hd)

end

/-! ### Opening a slot -/

/-- A segment meets no mismatch on a slot that is inactive or has its total (R192). -/
theorem Slot.mismatch_eq_false {x : Slot} {g : Segment} (h : x.active = true → x.total = g.total) :
    x.mismatch g = false := by
  cases ha : x.active with
  | false => simp [Slot.mismatch, ha]
  | true => simp [Slot.mismatch, h ha]

/-- An active slot with the segment's total is written as it is. -/
theorem Slot.opened_of_active {x : Slot} {g : Segment} (ha : x.active = true) (ht : x.total = g.total) :
    x.opened g = x := if_pos ⟨ha, by simp [Slot.mismatch, ht]⟩

/-- An inactive slot is created (R193). -/
theorem Slot.opened_of_inactive {x : Slot} {g : Segment} (ha : x.active = false) : x.opened g = Slot.create g.total :=
  if_neg (by simp [ha])

/-- A slot with a total mismatch is created anew (R192 under RESTART). -/
theorem Slot.opened_of_mismatch {x : Slot} {g : Segment} (hm : x.mismatch g = true) :
    x.opened g = Slot.create g.total := if_neg (by simp [hm])

/-- A new slot with a total above 0 meets the slot invariants (10_state.md R35). -/
theorem Slot.create_inv {total : U16} (h : 1 ≤ total.toNat) (mode : CompletionMode) :
    (Slot.create total).Inv mode := by
  refine (Slot.inv_active rfl).mpr ⟨List.Pairwise.nil, nofun, ?_⟩
  cases mode with
  | counter => exact h
  | coverage => exact ⟨rfl, h⟩

/-! ### The count of R36 -/

/-- `so_far` of an active slot by its definition (R36). -/
def Slot.counted (x : Slot) (mode : CompletionMode) : Nat :=
  match mode with
  | .counter => x.received.toNat
  | .coverage => cellsWritten x.total.toNat (Memory.read x.buf)

theorem Slot.soFar_of_inactive {x : Slot} {mode : CompletionMode} (ha : x.active = false) : x.soFar mode = 0 :=
  if_neg (ne_true_of_eq_false ha)

section

variable {x : Slot} {mode : CompletionMode} (hw : Memory.wf x.buf) (hb : ∀ c ∈ x.buf, c.1 < x.total.toNat)

include hw hb

/-- The count that `so_far` reports for an active slot is that of R36. -/
theorem Slot.soFar_eq_counted (ha : x.active = true) : x.soFar mode = BitVec.ofNat 32 (x.counted mode) := by
  cases mode with
  | counter => simp [Slot.soFar, Slot.counted, ha]
  | coverage => rw [Slot.counted, cellsWritten, Memory.count_below hw hb, Slot.soFar, if_pos ha]

/-- A transfer is complete when the count of R36 reaches the total (R195). -/
theorem Slot.done_iff_counted : x.done mode = true ↔ x.total.toNat ≤ x.counted mode := by
  rw [Slot.done_iff hw hb]
  cases mode with
  | counter => rfl
  | coverage => rw [Slot.counted, cellsWritten, Memory.count_below hw hb]

end

/-- An active slot that meets its invariants holds a transfer that is not complete (10_state.md R35). -/
theorem Slot.Inv.not_done {x : Slot} {mode : CompletionMode} (h : x.Inv mode) (ha : x.active = true) :
    x.done mode = false := by
  obtain ⟨hw, hb, hcount⟩ := (Slot.inv_active ha).mp h
  refine Bool.eq_false_iff.mpr fun hd => ?_
  have hle := (Slot.done_iff hw hb).mp hd
  cases mode with
  | counter => exact hcount.not_ge hle
  | coverage => exact hcount.2.not_ge hle

/-! ### Refused segments -/

/-- Settles O36: the row of the opcode map for 40 reads format FB; data that is no segment (`rsmParse_short`,
`rsmParse_inconsistent`) is refused. -/
theorem inconsistentSegmentsAreRefused : Obligations.InconsistentSegmentsAreRefused := by
  refine ⟨FormatFB.of_operands .rsmAccept fun _ => rfl, fun d s hshort => ?_,
    fun typ tid t1 t0 o1 o0 k chunk s hbad => ?_⟩
  · exact exec_rsmAccept_of_refuses (.inl (rsmParse_short hshort))
  · rw [← be16_toNat, ← be16_toNat] at hbad
    exact exec_rsmAccept_of_refuses (.inl (rsmParse_inconsistent hbad))

/-! ### Total mismatches -/

/-- Writing a slot twice is writing it the second time. -/
@[simp] theorem State.setSlot_setSlot (s : State) (t : Byte) (x y : Slot) :
    (s.setSlot t x).setSlot t y = s.setSlot t y := by
  simp [State.setSlot]

/-- R194 and R195 do not read the slot they write: they start from the opened slot. -/
theorem rsmWrite_setSlot (s : State) (g : Segment) (x y : Slot) :
    rsmWrite (s.setSlot g.tid y) g x = rsmWrite s g x := by
  simp only [rsmWrite, State.setSlot_setSlot, State.setSlot_cfg, State.setSlot_readouts]

/-- Under RESTART a segment with a total mismatch runs as on the slot's reset value (R192). -/
theorem rsmAccept_restart {s : State} {d : Bytes} {g : Segment} (hg : rsmParse d = some g)
    (hm : (s.slot g.tid).mismatch g = true) (hp : s.cfg.policy = .restart) :
    rsmAccept s d = rsmAccept (s.setSlot g.tid Slot.reset) d := by
  have hopened : ((s.setSlot g.tid Slot.reset).slot g.tid).opened g = Slot.create g.total := by
    rw [State.setSlot_slot_self]
    exact Slot.opened_of_inactive rfl
  rw [rsmAccept_of_segment hg (by simp [hp]), rsmAccept_of_segment hg (by simp [hp]), hopened,
    Slot.opened_of_mismatch hm, rsmWrite_setSlot]

/-- Settles O37: REJECT refuses the segment, and RESTART runs it on a new slot (`rsmAccept_restart`). -/
theorem totalMismatchFollowsThePolicy : Obligations.TotalMismatchFollowsThePolicy := by
  intro tid t1 t0 o1 o0 k chunk s hlen hfit hactive htotal
  rw [← be16_toNat, ← be16_toNat] at hfit
  have hg := rsmParse_consistent (tid := tid) hlen hfit
  have hm : (s.slot tid).mismatch (segmentOf tid t1 t0 o1 o0 k chunk) = true := by
    simp [Slot.mismatch, hactive, segmentOf, htotal]
  refine ⟨fun hp => exec_rsmAccept_of_refuses (.inr ⟨_, hg, hm, hp⟩), fun hp => ?_⟩
  rw [exec_rsmAccept, exec_rsmAccept, rsmAccept_restart hg hm hp]
  rfl

/-! ### Written segments -/

/-- The cells of the slot that is opened are those of the active slot, and HOLE in a new buffer (R193). -/
theorem Slot.opened_read {x : Slot} {g : Segment} (h : x.active = true → x.total = g.total) (a : Nat) :
    Memory.read (x.opened g).buf a = if x.active then Memory.read x.buf a else none := by
  cases ha : x.active with
  | true => rw [Slot.opened_of_active ha (h ha), if_pos rfl]
  | false => rw [Slot.opened_of_inactive ha]; rfl

/-- COUNTER adds the chunk length to the count, which does not wrap (R194, log entry 8). -/
theorem written_received_counter {s : State} {g : Segment} (hi : (s.slot g.tid).Inv s.cfg.mode)
    (h : (s.slot g.tid).active = true → (s.slot g.tid).total = g.total) (hmode : s.cfg.mode = .counter) :
    (written s g).received.toNat = (s.slot g.tid).received.toNat + g.len.toNat := by
  have hopened : ((s.slot g.tid).opened g).received = (s.slot g.tid).received := by
    cases ha : (s.slot g.tid).active with
    | true => rw [Slot.opened_of_active ha (h ha)]
    | false => rw [Slot.opened_of_inactive ha, (Slot.inv_inactive ha).mp hi]; rfl
  obtain ⟨-, -, -, -, hbound, -⟩ := Slot.opened_spec (g := g) hi
  have hlt := hbound hmode
  rw [hopened, ← BitVec.toNat_inj] at hlt
  have htotal := g.total.isLt
  have hlen := g.len.isLt
  simp only [written, Slot.accept, hmode, hopened, BitVec.toNat_add,
    BitVec.toNat_setWidth_of_le (show 8 ≤ 17 by decide)]
  refine Nat.mod_eq_of_lt ?_
  simp at hlt
  omega

section

variable {s : State} {d : Bytes} {g : Segment} (hg : rsmParse d = some g) (hi : (s.slot g.tid).Inv s.cfg.mode)
  (hsame : (s.slot g.tid).active = true → (s.slot g.tid).total = g.total)

include hg hi hsame

/-- While the count of R36 is below the total, Progress reports it and the slot holds the write (R194, R195). -/
theorem rsmAccept_of_counted_lt (hlt : (written s g).counted s.cfg.mode < g.total.toNat) :
    rsmAccept s d = (s.setSlot g.tid (written s g),
      .progress g.tid (BitVec.ofNat 32 ((written s g).counted s.cfg.mode))) := by
  obtain ⟨hactive, htotal, hw, hb, -⟩ := written_spec hg hi
  rw [← htotal] at hlt
  have hd := Bool.eq_false_iff.mpr fun hd => hlt.not_ge ((Slot.done_iff_counted hw hb).mp hd)
  rw [rsmAccept_progress hg (Slot.mismatch_eq_false hsame) hd, Slot.soFar_eq_counted hw hb hactive]

/-- When the count of R36 reaches the total, the buffer is read out and the slot reset (R195, R196). -/
theorem rsmAccept_of_total_le_counted (hle : g.total.toNat ≤ (written s g).counted s.cfg.mode) :
    rsmAccept s d = ({ s.setSlot g.tid Slot.reset with readouts := s.readouts + 1 },
      .complete g.tid (Memory.readout (written s g).buf g.total.toNat s.readouts)) := by
  obtain ⟨-, htotal, hw, hb, -⟩ := written_spec hg hi
  rw [← htotal] at hle ⊢
  exact rsmAccept_complete hg (Slot.mismatch_eq_false hsame) ((Slot.done_iff_counted hw hb).mpr hle)

end

/-- Settles O38: the slot after the write holds the cells and the count that the statement names, and that count decides
between Progress (`rsmAccept_of_counted_lt`) and Complete (`rsmAccept_of_total_le_counted`). -/
theorem segmentsAreWrittenAndCounted : Obligations.SegmentsAreWrittenAndCounted := by
  intro tid t1 t0 o1 o0 k chunk s off total count cell hoff htotal hlen hfit hi hsame hcount hcell
  rw [← be16_toNat] at hoff htotal
  subst hoff htotal
  have hg := rsmParse_consistent (tid := tid) hlen hfit
  have hread : ∀ a, Memory.read (written s (segmentOf tid t1 t0 o1 o0 k chunk)).buf a = cell a := fun a => by
    rw [hcell, written_read, Slot.opened_read hsame]
    rfl
  obtain ⟨hactive, htotal, -, -, hcov⟩ := written_spec hg hi
  have hreceived := written_received_counter (g := segmentOf tid t1 t0 o1 o0 k chunk) hi hsame
  have hcounted : (written s (segmentOf tid t1 t0 o1 o0 k chunk)).counted s.cfg.mode = count := by
    unfold Slot.counted
    rw [hcount, htotal, funext hread]
    cases hmode : s.cfg.mode with
    | counter => exact hreceived hmode
    | coverage => rfl
  refine ⟨fun hlt => ?_, fun hle => ?_⟩
  · have hslot := s.setSlot_slot_self tid (written s (segmentOf tid t1 t0 o1 o0 k chunk))
    rw [exec_rsmAccept, rsmAccept_of_counted_lt hg hi hsame (hcounted.trans_lt hlt), hcounted]
    refine ⟨_, rfl, ⟨rfl, rfl, rfl⟩, rfl, rfl, rfl, rfl, rfl, fun u hu => State.setSlot_slot_ne s _ hu,
      (congrArg Slot.active hslot).trans hactive, (congrArg Slot.total hslot).trans htotal, ?_,
      fun a => (congrArg (fun x => Memory.read x.buf a) hslot).trans (hread a)⟩
    refine (congrArg (fun x => x.received.toNat) hslot).trans ?_
    cases hmode : s.cfg.mode with
    | counter => simp only [hcount, hmode]; exact hreceived hmode
    | coverage => simp [hcov hmode]
  · rw [exec_rsmAccept, rsmAccept_of_total_le_counted hg hi hsame (hle.trans_eq hcounted.symm)]
    refine ⟨_, _, rfl, ⟨rfl, rfl, rfl⟩, rfl, rfl, rfl, rfl, fun u hu => State.setSlot_slot_ne s _ hu,
      s.setSlot_slot_self tid _, Memory.readout_length _ _ _, fun a ha => ?_⟩
    rw [← hread]
    exact Memory.readout_getElem? _ _ _ a ha

/-- Settles O39: what `rsm_accept` leaves alone is `rsmAccept_frame` and `rsmAccept_slot_ne`. -/
theorem acceptTouchesOnlyItsSlot : Obligations.AcceptTouchesOnlyItsSlot := by
  intro d s
  obtain ⟨hcfg, hacc, hparser, hcounters, -, hport, hresponses⟩ := rsmAccept_frame s d
  rw [exec_rsmAccept]
  exact ⟨_, _, rfl, ⟨by rw [State.respond_responses, hresponses], hport, rfl⟩, hcfg, hacc, hparser, hcounters,
    fun u hu => rsmAccept_slot_ne hu⟩

/-! ### Duplicates under COVERAGE -/

/-- Under COVERAGE the same write again leaves the whole slot as it was (R194). -/
theorem Slot.accept_accept_coverage {x : Slot} (hw : Memory.wf x.buf) (g : Segment) :
    (x.accept .coverage g).accept .coverage g = x.accept .coverage g := by
  simp only [Slot.accept, Memory.writeBytes_idem _ _ hw]

/-- Under COVERAGE a segment that left its transfer open is accepted again without a change of any slot. -/
theorem rsmAccept_slots_again {s t : State} {d : Bytes} {g : Segment} (hg : rsmParse d = some g)
    (hi : (s.slot g.tid).Inv s.cfg.mode) (hmode : s.cfg.mode = .coverage) (hcfg : t.cfg = s.cfg)
    (hd : (written s g).done s.cfg.mode = false) (ht : t.slot g.tid = written s g) :
    (rsmAccept t d).1.slots = t.slots := by
  obtain ⟨hactive, htotal, -⟩ := written_spec hg hi
  obtain ⟨-, -, hw, -⟩ := Slot.opened_spec (g := g) hi
  have hagain : written t g = t.slot g.tid := by
    rw [written, ht, Slot.opened_of_active hactive htotal, hcfg, written, hmode, Slot.accept_accept_coverage hw]
  have hm : (t.slot g.tid).mismatch g = false := Slot.mismatch_eq_false fun _ => ht ▸ htotal
  rw [rsmAccept_progress hg hm (by rw [hagain, ht, hcfg, hd]), hagain, State.setSlot_self]

/-- Settles O42: refused data is refused again, and a segment that left its slot active is accepted again without a
change (`rsmAccept_slots_again`); one that completed its transfer left the slot inactive. -/
theorem coverageIgnoresDuplicates : Obligations.CoverageIgnoresDuplicates := by
  intro tid d s t hc hi hmode ht hactive
  rw [exec_rsmAccept] at ht
  cases ht
  refine ⟨_, exec_rsmAccept _ _, ?_⟩
  rw [State.respond_slots]
  rcases rsmAccept_cases s d with ⟨hr, hx⟩ | ⟨g, hg, -, ⟨hd, hx⟩ | ⟨-, hx⟩⟩
  · rw [hx, rsmAccept_of_refuses (s := s.respond _) hr]
  · obtain rfl := rsmParse_tid_of_carriesId hc hg
    rw [hx]
    exact rsmAccept_slots_again hg hi hmode rfl hd (s.setSlot_slot_self _ _)
  · obtain rfl := rsmParse_tid_of_carriesId hc hg
    rw [hx] at hactive
    have hreset := s.setSlot_slot_self g.tid Slot.reset
    exact absurd (hreset ▸ hactive) (by decide)

/-! ### Segments without bytes -/

/-- The header of a segment without bytes is consistent when its offset is at most its total (R191). -/
theorem rsmParse_empty {tid t1 t0 o1 o0 : Byte} (h : (be16 o1 o0).toNat ≤ (be16 t1 t0).toNat) :
    rsmParse [0x01, tid, t1, t0, o1, o0, 0x00] = some (segmentOf tid t1 t0 o1 o0 0x00 []) :=
  rsmParse_consistent rfl h

/-- A segment without bytes leaves the slot as it was opened (R194). -/
theorem written_empty {s : State} {g : Segment} (hchunk : g.chunk = []) (hlen : g.len = 0) :
    written s g = (s.slot g.tid).opened g := by
  cases hmode : s.cfg.mode with
  | counter => simp [written, Slot.accept, Memory.writeBytes, hmode, hchunk, hlen]
  | coverage => simp [written, Slot.accept, Memory.writeBytes, hmode, hchunk]

/-- A segment without bytes opens the slot and reports its count: an open transfer that meets the slot invariants is
not complete. -/
theorem rsmAccept_empty {s : State} {d : Bytes} {g : Segment} {x : Slot} (hg : rsmParse d = some g)
    (hchunk : g.chunk = []) (hlen : g.len = 0) (hm : (s.slot g.tid).mismatch g = false)
    (hx : (s.slot g.tid).opened g = x) (hactive : x.active = true) (hi : x.Inv s.cfg.mode) :
    rsmAccept s d = (s.setSlot g.tid x, .progress g.tid (x.soFar s.cfg.mode)) := by
  have hwritten := (written_empty hchunk hlen).trans hx
  rw [rsmAccept_progress hg hm (by rw [hwritten, hi.not_done hactive]), hwritten]

/-- A transfer of total 0 is complete in both modes (R195). -/
theorem Slot.done_of_total_zero {x : Slot} (h : x.total = 0) (mode : CompletionMode) : x.done mode = true := by
  cases mode with
  | counter => simp [Slot.done, h]
  | coverage => simp [Slot.done, Memory.noHole, h]

/-- On an inactive slot a segment of total 0 completes at once with an empty payload (R195, R196). -/
theorem rsmAccept_empty_of_total_zero {s : State} {d : Bytes} {g : Segment} (hg : rsmParse d = some g)
    (hchunk : g.chunk = []) (hlen : g.len = 0) (htotal : g.total = 0) (hinactive : (s.slot g.tid).active = false) :
    rsmAccept s d = ({ s.setSlot g.tid Slot.reset with readouts := s.readouts + 1 }, .complete g.tid []) := by
  have hwritten : written s g = Slot.create 0 := by
    rw [written_empty hchunk hlen, Slot.opened_of_inactive hinactive, htotal]
  have hm : (s.slot g.tid).mismatch g = false := Slot.mismatch_eq_false (by simp [hinactive])
  rw [rsmAccept_complete hg hm (by rw [hwritten]; exact Slot.done_of_total_zero rfl _), hwritten]
  rfl

/-- Writing to a slot what it holds leaves the slots as they were. -/
theorem State.setSlot_slots_of_eq {s : State} {t : Byte} {x : Slot} (h : s.slot t = x) :
    (s.setSlot t x).slots = s.slots := by
  rw [← h, State.setSlot_self]

/-- Settles O43: a segment without bytes writes nothing (`written_empty`), so a new slot of total 0 is complete at once
(`rsmAccept_empty_of_total_zero`), and any other open slot reports the count it has (`rsmAccept_empty`). -/
theorem emptySegments : Obligations.EmptySegments := by
  refine ⟨fun tid s hreset => ?_, fun tid t1 t0 o1 o0 s hpos hfit hreset => ?_,
    fun tid t1 t0 o1 o0 s hfit hi hactive htotal => ?_⟩
  · have hinactive : (s.slot tid).active = false := by rw [hreset]; rfl
    rw [exec_rsmAccept, rsmAccept_empty_of_total_zero (rsmParse_empty le_rfl) rfl rfl rfl hinactive]
    exact ⟨_, rfl, ⟨rfl, rfl, rfl⟩, rfl, rfl, rfl, State.setSlot_slots_of_eq hreset, rfl⟩
  · have hinactive : (s.slot tid).active = false := by rw [hreset]; rfl
    have hm : (s.slot tid).mismatch (segmentOf tid t1 t0 o1 o0 0x00 []) = false :=
      Slot.mismatch_eq_false (by simp [hinactive])
    have hcount : (Slot.create (be16 t1 t0)).soFar s.cfg.mode = 0 := by cases s.cfg.mode <;> rfl
    rw [exec_rsmAccept, rsmAccept_empty (rsmParse_empty hfit) rfl rfl hm (Slot.opened_of_inactive hinactive) rfl
      (Slot.create_inv hpos _)]
    refine ⟨_, rfl, ⟨?_, rfl, rfl⟩, s.setSlot_slot_self tid _⟩
    exact congrArg (fun n => s.responses ++ [[0x00, 0x01, tid] ++ u32Bytes n]) hcount
  · rw [exec_rsmAccept, rsmAccept_empty (rsmParse_empty hfit) rfl rfl (Slot.mismatch_eq_false fun _ => htotal)
      (Slot.opened_of_active hactive htotal) hactive hi]
    exact ⟨_, rfl, ⟨rfl, rfl, rfl⟩, rfl, rfl, rfl, State.setSlot_slots_of_eq rfl, rfl⟩

/-! ### RX_BYTE, RSM_STATUS and RSM_CLEAR -/

/-- Settles O47: the row of the opcode map for 22 reads format F1; the transition and RX_BYTE run by the same row
(`exec_transition`, `exec_rxByte_of_row`, `exec_rxByte_match`), and the reassembler adds no response of its own. -/
theorem rxByteRunsThePipeline : Obligations.RxByteRunsThePipeline := by
  refine ⟨FormatF1.of_operands .rxByte fun _ => rfl, fun t b s hrow hne => ⟨_, exec_transition hrow, ?_⟩,
    fun b s hstate hcrc => ?_⟩
  · have hevent : (runTransition t b s).event = none := by rw [runTransition_event, if_neg hne]
    rw [exec_rxByte_of_row hrow hne, State.respond_of_no_event hevent, runTransition_responses]
  · have hrow : Transition.crcMatch.Row s b := ⟨hstate, hcrc⟩
    obtain ⟨-, -, -, -, -, -, hresponses⟩ := rsmAccept_frame (crcMatch b s) s.parser.acc
    refine ⟨_, _, resBytes (rsmAccept (crcMatch b s) s.parser.acc).2, exec_transition hrow, exec_rsmAccept _ _,
      congrArg (· ++ _) hresponses, ?_⟩
    rw [exec_rxByte_match hrow, State.respond, State.answer, hresponses]
    rfl

/-- Settles O45: the row of the opcode map for 41 reads format F1; an active slot answers the count of R36
(`Slot.soFar_eq_counted`), and an inactive slot holds its reset value. -/
theorem rsmStatusReportsTheSlot : Obligations.RsmStatusReportsTheSlot := by
  refine ⟨FormatF1.of_operands .rsmStatus fun _ => rfl, fun tid s hi =>
    ⟨_, rfl, ⟨rfl, rfl, rfl, rfl, rfl⟩, rfl, ?_, rfl, rfl⟩⟩
  cases hactive : (s.slot tid).active with
  | true =>
    obtain ⟨hw, hb, -⟩ := (Slot.inv_active hactive).mp hi
    rw [State.respond_responses, Slot.soFar_eq_counted hw hb hactive, if_pos rfl]
    cases s.cfg.mode <;> rfl
  | false =>
    rw [State.respond_responses, Slot.soFar_of_inactive hactive, (Slot.inv_inactive hactive).mp hi]
    rfl

/-- Settles O46: the row of the opcode map for 42 reads format F0, and the command writes every slot and no other part
of the state. -/
theorem rsmClearDiscardsEveryTransfer : Obligations.RsmClearDiscardsEveryTransfer :=
  ⟨FormatF0.of_operands .rsmClear fun _ => rfl,
    fun s => ⟨_, rfl, ⟨rfl, rfl, rfl⟩, rfl, rfl, rfl, rfl, rfl, s.clearSlots_slot⟩⟩

end Sys2Proof.Machine
end

section
/-! PROOF. The family of 45_system.md: the answers to rejected packets, the register map that REG_READ reads, and
CORE_RESET. -/

namespace Sys2Proof.Machine

open Sys2Proof

/-! ### Rejected packets -/

/-- A rejected packet is taken off the port and answered with its status alone. -/
theorem step_of_reject {s : State} {p : Bytes} {rest : List Bytes} {why : Status} (hp : s.port = p :: rest)
    (hd : decode p = .reject why) :
    step s = .next { s with port := rest, event := none, responses := s.responses ++ [[statusByte why]] } := by
  rw [step_of_port hp, hd]
  rfl

/-- An unassigned opcode is illegal, whatever follows it (R83, R244). -/
theorem decode_of_unassigned {op : Byte} (h : op ∉ assignedOpcodes) (fields : Bytes) :
    decode (op :: fields) = .reject .illegalOpcode := by
  simp only [decode, Opcode.ofByte_eq_none h]

/-- An assigned opcode with a length other than the one its front asks for is malformed (R81, R84). -/
theorem decode_of_wrong_length {op : Byte} {fields : Bytes} (ha : op ∈ assignedOpcodes)
    (hl : packetLength (op :: fields) ≠ some (fields.length + 1)) : decode (op :: fields) = .reject .malformed := by
  obtain ⟨o, ho⟩ := Opcode.ofByte_assigned ha
  obtain rfl := Opcode.byte_of_ofByte ho
  have h := decode_by_length o fields
  rwa [if_neg hl] at h

/-- Settles O7: the decoder rejects each of the three kinds of packet (`decode_of_unassigned`,
`decode_of_wrong_length`), and the step answers the status (`step_of_reject`). -/
theorem rejectedPacketsAreAnswered : Obligations.RejectedPacketsAreAnswered :=
  ⟨fun _ _ hp => step_of_reject hp decode_nil,
    fun _ _ fields _ hp hop => step_of_reject hp (decode_of_unassigned hop fields),
    fun _ _ _ _ hp hop hl => step_of_reject hp (decode_of_wrong_length hop hl)⟩

/-! ### REG_READ -/

/-- RSM_ACTIVE (R37) counts at most 256 slots, so its nine bits lose nothing. -/
theorem activeSlots_setWidth (s : State) :
    (BitVec.ofNat 9 s.activeSlots).setWidth 32 = BitVec.ofNat 32 s.activeSlots :=
  BitVec.setWidth_ofNat_of_le_of_lt (by decide) (Nat.lt_of_le_of_lt (activeSlots_le s) (by decide))

/-- CFG_MODE (R39) as a number: the policy has weight 1 and the completion mode weight 2. -/
theorem cfgMode_eq (c : Config) : cfgMode c =
    BitVec.ofNat 32 ((if c.policy = .restart then 1 else 0) + (if c.mode = .coverage then 2 else 0)) := by
  unfold cfgMode
  cases c.policy <;> cases c.mode <;> rfl

/-- REG_READ of an address with a register answers the register. -/
theorem exec_regRead_of_register {s : State} {a : Byte} {v : U32} (h : register s a = some v) :
    exec (.regRead a) s = .next (s.respond (u32Bytes v)) := by
  rcases exec_regRead_cases a s with ⟨w, hw, hx⟩ | ⟨ha, -⟩
  · rw [h] at hw
    cases hw
    exact hx
  · exact absurd ((register_mapped s a).mpr ⟨v, h⟩) ha

/-- REG_READ of an address without a register is refused. -/
theorem exec_regRead_of_unmapped (s : State) {a : Byte} (h : a ∉ mappedRegisters) :
    exec (.regRead a) s = .next (s.raise .invalidArg) := by
  rcases exec_regRead_cases a s with ⟨v, hv, -⟩ | ⟨-, hx⟩
  · exact absurd ((register_mapped s a).mpr ⟨v, hv⟩) h
  · exact hx

/-- Settles O48: the row of the opcode map for 50 reads format F1; the map's rows are what `register` answers,
by definition but for the count of 06 (`activeSlots_setWidth`) and the mode bits of 08 (`cfgMode_eq`). -/
theorem regReadFollowsTheMap : Obligations.RegReadFollowsTheMap := by
  refine ⟨FormatF1.of_operands .regRead fun _ => rfl, fun s a v hrow => ?_, fun s a => exec_regRead_of_unmapped s⟩
  have hregister : register s a = some v := by
    simp only [List.mem_cons, List.not_mem_nil, or_false, Prod.mk.injEq] at hrow
    rcases hrow with ⟨rfl, rfl⟩ | ⟨rfl, rfl⟩ | ⟨rfl, rfl⟩ | ⟨rfl, rfl⟩ | ⟨rfl, rfl⟩ | ⟨rfl, rfl⟩ | ⟨rfl, rfl⟩ |
      ⟨rfl, rfl⟩ | ⟨rfl, rfl⟩ | ⟨rfl, rfl⟩ | ⟨rfl, rfl⟩ | ⟨rfl, rfl⟩ | ⟨rfl, rfl⟩
    -- The rows of RSM_ACTIVE (06) and CFG_MODE (08), in the map's order.
    on_goal 9 => exact congrArg some (cfgMode_eq s.cfg)
    on_goal 7 => exact congrArg some (activeSlots_setWidth s)
    all_goals rfl
  exact exec_regRead_of_register hregister

/-! ### CORE_RESET -/

/-- Settles O49: the row of the opcode map for 60 reads format F0, and the command answers on `coreReset s`, whose
fields are R40's reset values and whose slots are all reset (`coreReset_slot`). -/
theorem coreResetRestoresTheResetState : Obligations.CoreResetRestoresTheResetState :=
  ⟨FormatF0.of_operands .coreReset fun _ => rfl,
    fun s => ⟨_, rfl, ⟨rfl, rfl, rfl⟩, rfl, rfl, rfl, coreReset_slot s, rfl, rfl⟩⟩

end Sys2Proof.Machine
end

section
/-! PROOF. The family of 60_exceptions.md: the status of every packet, that a refused command changes nothing, and the
idle step. -/

namespace Sys2Proof.Machine

open Sys2Proof

/-! ### The idle step -/

/-- Settles O8: of the cases of a step (`step_cases`) an empty port leaves the idle one. -/
theorem idleStepKeepsState : Obligations.IdleStepKeepsState := by
  intro s hport
  rcases step_cases s with ⟨-, hs⟩ | ⟨p, rest, i, hp, -, -⟩ | ⟨p, rest, why, hp, -, -⟩
  · exact hs
  · cases hport.symm.trans hp
  · cases hport.symm.trans hp

/-! ### Errors -/

/-- Settles O12: a command that refuses its argument keeps the block (`exec_command_answers`), and the status that
rejects a packet is answered alone. -/
theorem errorsChangeNothing : Obligations.ErrorsChangeNothing := by
  intro s t p r rest hport h hr herror
  rw [step_of_port hport] at h
  cases hd : decode p with
  | instr i =>
    rw [hd] at h
    obtain ⟨-, -, -, r', hr', hform⟩ := exec_command_answers (decode_command hd) h
    obtain rfl : r = r' := by simpa using hr.symm.trans hr'
    rcases hform with hok | ⟨rfl, hsame⟩
    · exact absurd hok herror
    · exact ⟨hsame, rfl⟩
  | reject why =>
    rw [hd] at h
    cases h
    obtain rfl : [statusByte why] = r := by simpa using hr
    exact ⟨State.answer_sameBlock { s with port := rest } _, rfl⟩

/-! ### The status of a packet -/

/-- The status that the argument checks of R241 give a command. -/
def argumentStatus (c : Config) : Instr → Byte
  | .frmEncode d => if d.length = 0 ∨ c.maxPayload.toNat < d.length then 0x01 else 0x00
  | .regRead a => if a ∈ mappedRegisters then 0x00 else 0x01
  | _ => 0x00

/-- A command answers the status of its argument, and an error status alone. -/
theorem exec_answers_argumentStatus {i : Instr} {p : Bytes} {s t : State} (hp : encode i = .packet p)
    (h : exec i s = .next t) : ∃ r, t.responses = s.responses ++ [argumentStatus s.cfg i :: r] ∧
      (argumentStatus s.cfg i ≠ 0x00 → r = []) := by
  cases i
  case frmEncode d =>
    rcases exec_frmEncode_cases d s with ⟨hd, hx⟩ | ⟨hd, hx⟩ <;> rw [hx] at h <;> cases h
    · exact ⟨[], by rw [argumentStatus, if_pos hd]; rfl, fun _ => rfl⟩
    · rw [argumentStatus, if_neg (by omega)]
      exact ⟨_, rfl, absurd rfl⟩
  case regRead a =>
    rcases exec_regRead_cases a s with ⟨v, hv, hx⟩ | ⟨ha, hx⟩ <;> rw [hx] at h <;> cases h
    · rw [argumentStatus, if_pos ((register_mapped s a).mpr ⟨v, hv⟩)]
      exact ⟨_, rfl, absurd rfl⟩
    · exact ⟨[], by rw [argumentStatus, if_neg ha]; rfl, fun _ => rfl⟩
  case prsFeed b =>
    rcases exec_prsFeed_cases b s with ⟨u, -, hx⟩ | ⟨-, hx⟩ <;> rw [hx] at h <;> cases h
    exact ⟨_, congrArg (· ++ _) (runTransition_responses u b s), absurd rfl⟩
  case rxByte b =>
    rcases exec_rxByte_cases b s with ⟨u, -, -, hx⟩ | ⟨-, hx⟩ | ⟨-, hx⟩ <;> rw [hx] at h <;> cases h
    · exact ⟨_, congrArg (· ++ _) (runTransition_responses u b s), absurd rfl⟩
    · obtain ⟨-, -, -, -, -, -, hresponses⟩ := rsmAccept_frame (crcMatch b s) s.parser.acc
      exact ⟨_, congrArg (· ++ _) hresponses, absurd rfl⟩
  case rsmAccept d =>
    rw [exec_rsmAccept] at h
    cases h
    obtain ⟨-, -, -, -, -, -, hresponses⟩ := rsmAccept_frame s d
    exact ⟨_, congrArg (· ++ _) hresponses, absurd rfl⟩
  case crcInit | crcStep | prsReset | rsmClear | coreReset | crcCompute | segSplit | segSplitRaw | txSegmented | txRaw |
      rsmStatus => cases h; exact ⟨_, rfl, absurd rfl⟩
  all_goals cases hp

/-- An assigned opcode with the length its front asks for decodes (R81, R84). -/
theorem decode_of_right_length {op : Byte} {fields : Bytes} (ha : op ∈ assignedOpcodes)
    (hl : packetLength (op :: fields) = some (fields.length + 1)) : ∃ i, decode (op :: fields) = .instr i := by
  obtain ⟨o, ho⟩ := Opcode.ofByte_assigned ha
  obtain rfl := Opcode.byte_of_ofByte ho
  have h := decode_by_length o fields
  rwa [if_pos hl] at h

theorem assigned_of_decode {op : Byte} {fields : Bytes} {i : Instr} (h : decode (op :: fields) = .instr i) :
    op ∈ assignedOpcodes := by
  by_contra hop
  cases h.symm.trans (decode_of_unassigned hop fields)

theorem packetLength_of_decode {op : Byte} {fields : Bytes} {i : Instr} (h : decode (op :: fields) = .instr i) :
    packetLength (op :: fields) = some (fields.length + 1) := by
  by_contra hl
  cases h.symm.trans (decode_of_wrong_length (assigned_of_decode h) hl)

/-- The status of a packet that is rejected is the one the decoder rejects it with. -/
theorem expectedStatus_of_reject {p : Bytes} {why : Status} (h : decode p = .reject why) (c : Config) :
    expectedStatus c p = statusByte why := by
  cases p with
  | nil => cases h; rfl
  | cons op fields =>
    by_cases hop : op ∈ assignedOpcodes
    · by_cases hl : packetLength (op :: fields) = some (fields.length + 1)
      · obtain ⟨i, hi⟩ := decode_of_right_length hop hl
        cases h.symm.trans hi
      · cases h.symm.trans (decode_of_wrong_length hop hl)
        rw [expectedStatus, if_neg (not_not_intro hop), if_pos hl]
        rfl
    · cases h.symm.trans (decode_of_unassigned hop fields)
      rw [expectedStatus, if_pos hop]
      rfl

/-- The status of a packet that decodes is that of its command's argument. -/
theorem expectedStatus_of_instr {p : Bytes} {i : Instr} (h : decode p = .instr i) (c : Config) :
    expectedStatus c p = argumentStatus c i := by
  cases p with
  | nil => cases h
  | cons op fields =>
    obtain ⟨hencode, -⟩ := decodedPacketsReencode _ _ h
    rw [expectedStatus, if_neg (not_not_intro (assigned_of_decode h)),
      if_neg (not_not_intro (packetLength_of_decode h))]
    cases i <;> cases hencode
    case cons.frmEncode.refl d =>
      have hlength : (blobBytes d).length = 2 ∨ c.maxPayload.toNat + 2 < (blobBytes d).length ↔
          d.length = 0 ∨ c.maxPayload.toNat < d.length := by
        rw [blobBytes_length]
        omega
      simp only [hlength]
      simp [argumentStatus]
    case cons.regRead.refl a => by_cases ha : a ∈ mappedRegisters <;> simp [argumentStatus, ha]
    all_goals rfl

/-- Settles O5: the status R244 gives a packet is the one the decoder rejects it with (`expectedStatus_of_reject`) or
the one of its command's argument (`expectedStatus_of_instr`), which the command answers
(`exec_answers_argumentStatus`). -/
theorem statusOfEveryPacket : Obligations.StatusOfEveryPacket := by
  intro s p rest hinv hport
  have hstep := step_of_port hport
  cases hd : decode p with
  | instr i =>
    rw [hd] at hstep
    obtain ⟨-, hparser, -⟩ := hinv
    obtain ⟨hencode, -⟩ := decodedPacketsReencode p i hd
    obtain ⟨t, ht⟩ := exec_command_completes (s := { s with port := rest }) (decode_command hd) hparser
    obtain ⟨r, hr, halone⟩ := exec_answers_argumentStatus hencode ht
    rw [expectedStatus_of_instr hd]
    exact ⟨t, r, hstep.trans ht, hr, halone⟩
  | reject why =>
    rw [hd] at hstep
    rw [expectedStatus_of_reject hd]
    exact ⟨_, [], hstep, rfl, fun _ => rfl⟩

end Sys2Proof.Machine
end
